-- ==== Sys2Proof/Word.lean ====
section
/-! DEFINITION. The two data widths of the hardware: the 16-bit word and the 8-bit byte
(spec 00_scope.md rule R4). -/

namespace Sys2Proof

/-- A register's contents, an immediate, a word of memory: 16 bits, unsigned (R4, R10). -/
abbrev Word := BitVec 16

/-- One memory cell (R4, R28). -/
abbrev Byte := BitVec 8

/-- A line of program text, a token, a label: a sequence of characters (R70). -/
abbrev Text := List Char

end Sys2Proof
end

