-- ==== Sys2Proof/Machine/Bits.lean ====
section
/-! DEFINITION. The bit and number primitives of 00_scope.md section 4: `wrap16`, the byte halves of a word,
`sign`, `popcount`. -/

namespace Sys2Proof

/-- `wrap16(v)`: the unique 16-bit value congruent to the integer `v` modulo 65536 (R7). -/
def wrap16 (v : Int) : Word := BitVec.ofInt 16 v

/-- A word read as the non-negative integer it stands for. -/
def intOf (v : Word) : Int := (v.toNat : Int)

/-- `v[7:0]` (R43). -/
def lowByte (v : Word) : Byte := v.extractLsb' 0 8

/-- `v[15:8]` (R43). -/
def highByte (v : Word) : Byte := v.extractLsb' 8 8

/-- The word whose low byte is `lo` and whose high byte is `hi` (R42). -/
def wordOfBytes (lo hi : Byte) : Word := hi ++ lo

/-- `sign(v)`: bit 15 (00_scope.md section 4). -/
def signBit (v : Word) : Bool := v.getLsbD 15

/-- `popcount(v)` of a byte (00_scope.md section 4). -/
def popcount (b : Byte) : Nat := (List.range 8).countP (fun i => b.getLsbD i)

end Sys2Proof
end

