-- ==== Sys2Proof/Machine/Alu.lean ====
section
/-! DEFINITION. The ALU: four pure functions of two words (R130 to R134). -/

namespace Sys2Proof.Machine

/-- What `ALU_ADD` and `ALU_SUB` return (R131, R132). -/
structure AluSum where
  /-- The sum or difference as an integer, not masked. -/
  raw : Int
  /-- The 16-bit result. -/
  r : Word
  carry : Bool
  overflow : Bool
  deriving DecidableEq, Repr

/-- What `ALU_MUL` returns (R133). -/
structure AluProduct where
  /-- The true product. -/
  p : Nat
  /-- Its low 16 bits. -/
  r : Word
  /-- The product exceeds 0xFFFF. -/
  big : Bool
  deriving DecidableEq, Repr

/-- What `ALU_DIV` returns (R134). -/
structure AluQuotient where
  /-- The floor quotient. -/
  q : Nat
  /-- The remainder. -/
  m : Nat
  deriving DecidableEq, Repr

/-- `ALU_ADD(a, b)` (R131). -/
def aluAdd (a b : Word) : AluSum where
  raw := intOf a + intOf b
  r := wrap16 (intOf a + intOf b)
  carry := decide (intOf a + intOf b > 0xFFFF)
  overflow := decide (signBit a = signBit b) && decide (signBit (wrap16 (intOf a + intOf b)) ≠ signBit a)

/-- `ALU_SUB(a, b)` (R132). -/
def aluSub (a b : Word) : AluSum where
  raw := intOf a - intOf b
  r := wrap16 (intOf a - intOf b)
  carry := decide (a.toNat < b.toNat)
  overflow := decide (signBit a ≠ signBit b) && decide (signBit (wrap16 (intOf a - intOf b)) = signBit b)

/-- `ALU_MUL(a, b)` (R133). -/
def aluMul (a b : Word) : AluProduct where
  p := a.toNat * b.toNat
  r := wrap16 ((a.toNat * b.toNat : Nat) : Int)
  big := decide (a.toNat * b.toNat > 0xFFFF)

/-- `ALU_DIV(a, b)`, consulted only for `b ≠ 0` (R134). -/
def aluDiv (a b : Word) : AluQuotient where
  q := a.toNat / b.toNat
  m := a.toNat % b.toNat

end Sys2Proof.Machine
end

