-- ==== Sys2Proof/Syntax.lean ====
section
/-! DEFINITION. The syntax of the machine, whole: the nine registers, the nine error kinds, and one
constructor of `Instr` for each of the sixteen rows of spec/opcode_table.json. -/

namespace Sys2Proof

/-- The nine registers of the Register File, in the order the spec lists and numbers them (R10, R96). -/
inductive Reg
  | ax | bx | cx | dx | si | di | sp | bp | ip
  deriving DecidableEq, Repr

/-- The nine error kinds, in the order of their cause codes (R170). -/
inductive ErrorKind
  /-- Code 1, raised by the decoder: the line has not the shape `opcode [operands]` (R171). -/
  | invalidInstructionFormat
  /-- Code 2, raised by the decoder: the opcode word is none of the seven (R172). -/
  | unknownInstruction
  /-- Code 3, raised by the decoder: a destination does not name a register (R173). -/
  | unknownRegister
  /-- Code 4, raised by the decoder: a source is neither a register nor a number (R174). -/
  | invalidOperand
  /-- Code 5, raised by the decoder: the text inside memory brackets is not numeric (R175). -/
  | invalidAddress
  /-- Code 6, raised by `div` (R176). -/
  | divideByZero
  /-- Code 7, defined for `div` and never raised (R177, R143). -/
  | divisionOverflow
  /-- Code 8, raised by the decoder: too few operands (R178). -/
  | missingArguments
  /-- Code 9, raised by the memory forms of `mov` (R179). -/
  | addressOutOfRange
  deriving DecidableEq, Repr

/-- A decoded instruction: one constructor for each legal form (R88, R97). A memory operand carries
the address as the unbounded integer that was written (30_encoding.md, the decoder's result type);
it is range-checked when the access is made (R47, R82). -/
inductive Instr
  /-- `mov r, r` (R111). -/
  | movRegReg (dst src : Reg)
  /-- `mov r, imm` (R111). -/
  | movRegImm (dst : Reg) (imm : Word)
  /-- `mov r, [a]` (R112). -/
  | movRegMem (dst : Reg) (addr : Int)
  /-- `mov [a], r` (R113). -/
  | movMemReg (addr : Int) (src : Reg)
  /-- `mov [a], imm` (R113). -/
  | movMemImm (addr : Int) (imm : Word)
  /-- `push r` (R115). -/
  | pushReg (src : Reg)
  /-- `push imm` (R115). -/
  | pushImm (imm : Word)
  /-- `pop r` (R117). -/
  | popReg (dst : Reg)
  /-- `add r, r` (R135). -/
  | addRegReg (dst src : Reg)
  /-- `add r, imm` (R135). -/
  | addRegImm (dst : Reg) (imm : Word)
  /-- `sub r, r` (R136). -/
  | subRegReg (dst src : Reg)
  /-- `sub r, imm` (R136). -/
  | subRegImm (dst : Reg) (imm : Word)
  /-- `mul r` (R137). -/
  | mulReg (src : Reg)
  /-- `mul imm` (R137). -/
  | mulImm (imm : Word)
  /-- `div r` (R138). -/
  | divReg (src : Reg)
  /-- `div imm` (R138). -/
  | divImm (imm : Word)
  deriving DecidableEq, Repr

end Sys2Proof
end

