-- ==== Sys2Proof/Config.lean ====
section
/-! DEFINITION. What is fixed for the machine: the sizes of R4, and, without a body, the four things
the spec leaves open (the wording of an error message, the memory-changed notifications, on which side of
the yield at a batch boundary a stop request is looked for, what the host sees inside an instruction). -/

namespace Sys2Proof.Config

/-- `MEMSIZE`: the number of memory cells (R4). -/
def memSize : Nat := 0x100000

/-- `BATCH`: the lines of one scheduler batch (R4, R189). -/
def batch : Nat := 100

/-- `SP_RESET` (R4, R33). -/
def spReset : Word := 0xFFF0

/-- The number of bits of a decoded-instruction word (R4, R95). -/
def diwBits : Nat := 64

/-- OPEN, the parameter `errorMessage` of decision D24 (R193): the wording of a failure's description.
UNVERIFIED, log entry 7. -/
opaque errorMessage : ErrorKind → String

/-- OPEN, the parameter `memNotify` of decision D23 (R49): whether a word write is notified once per byte
(true) or once per word (false). UNVERIFIED, log entry 6. -/
opaque memNotifyPerByte : Bool

/-- OPEN (R49, D23): the payload of the notification of a write of `width` bytes at `addr`.
UNVERIFIED, log entry 6. -/
opaque memNotifyPayload : (addr width : Nat) → Nat

/-- A FREE VALUE (R185, U11, N30), one for each draw: whether the check for a stop request at a batch boundary
follows the yield to the host (true) or precedes it (false). Log entry 5. -/
opaque checkFollowsYield : (draw : Nat) → Bool

/-- A FREE VALUE (R31, D18, U12), one for each moment: whether the host is shown the state at a moment inside an
instruction. Log entry 21. -/
opaque shownInside : (moment : Nat) → Bool

end Sys2Proof.Config
end

