-- ==== Sys2Proof/Machine/State.lean ====
section
/-! DEFINITION. The state of the machine as plain data: the three architectural stores (10_state.md sections 1, 3
and 5), the scheduler's state (10_state.md rule R30), the calls the host has yet to make, the hook
invocations the host has received, and the state after reset (R33). -/

namespace Sys2Proof.Machine

/-- The Register File: exactly nine 16-bit registers (R10). -/
structure Regs where
  ax : Word
  bx : Word
  cx : Word
  dx : Word
  si : Word
  di : Word
  sp : Word
  bp : Word
  /-- A register like the others; it sequences nothing (R14, R15). -/
  ip : Word
  deriving DecidableEq, Repr

/-- The Flag Register: seven separate one-bit flags (R20). -/
structure Flags where
  ZF : Bool
  SF : Bool
  CF : Bool
  OF : Bool
  PF : Bool
  AF : Bool
  DF : Bool
  deriving DecidableEq, Repr

/-- The memory array (R28): the bytes that differ from 0, by rising address. -/
abbrev Memory := List Host.Cell

/-- The scheduler's five states (R186). A stop request is pending exactly in `stopping` (R185). -/
inductive Sched
  | idle | running | stopping | haltedOk | haltedError
  deriving DecidableEq, Repr

/-- What the host does at one step boundary (R6, R186; log entry 4). -/
inductive HostMove
  /-- Nothing: the scheduler takes its step. -/
  | wait
  /-- `run(programText)` (R186). -/
  | run (text : Text)
  /-- `stop()` (R185). -/
  | stop
  /-- `reset()` (R201, R202). -/
  | reset
  deriving DecidableEq, Repr

/-- The state the host can observe (R31). -/
structure Snapshot where
  regs : Regs
  flags : Flags
  mem : Memory
  deriving DecidableEq, Repr

/-- An invocation of one of the host's hooks. -/
inductive HookCall
  /-- The memory-changed notification of a write of `width` bytes from `addr` on (R49). -/
  | memoryChanged (addr width : Nat)
  /-- The state observation hook (R191). -/
  | observed (snapshot : Snapshot)
  /-- Not promised and not excluded (R31, D18): at this moment inside an instruction, after one of its writes, the
  state observation hook may be invoked; the free value `Config.shownInside moment` says whether it is. -/
  | moment (moment : Nat) (snapshot : Snapshot)
  /-- The progress hook (R190). -/
  | progress (linesCompleted totalLines : Nat)
  /-- The error hook (R181, R192, R193): the 1-based line number and the kind its message stands for. -/
  | error (lineNumber : Nat) (kind : ErrorKind)
  deriving DecidableEq, Repr

/-- The whole state of the machine. -/
structure State where
  /-- The Register File (R10). -/
  regs : Regs
  /-- The Flag Register (R20). -/
  flags : Flags
  /-- The memory array (R28). -/
  mem : Memory
  /-- The scheduler state, with the pending stop request (R30, R186). -/
  sched : Sched
  /-- The line cursor `lc` (R30, R163). -/
  lc : Nat
  /-- The program: its lines, owned for the duration of one run (R29, R30). -/
  program : List Text
  /-- The Label Map, built once for a run and read by nothing (R30, R161). -/
  labelMap : List (Text × Nat)
  /-- The calls the host has yet to make, one entry a step boundary (R6; log entry 4). -/
  host : List HostMove
  /-- The hook invocations since the last `run` or `reset`, oldest first (R49, R190 to R193), and among them the
  moments at which there may be a further one (R31). -/
  hooks : List HookCall
  /-- The model's own field, not the spec's: how many free values have been drawn (log entry 5). -/
  draws : Nat
  /-- The model's own field, not the spec's: at the batch boundary where the cursor stands the check for a stop
  request is still to come, after the yield to the host (R185, N30; log entry 5). -/
  checkPending : Bool
  /-- The model's own field, not the spec's: how many moments inside instructions have passed (log entry 21). -/
  moments : Nat
  deriving DecidableEq, Repr

/-- Why a step may stop with a fault: there is no reason. Every failure the spec defines halts the run in a
state that the spec describes (R181), so it is a next state; nothing else stops this machine. -/
inductive Fault
  deriving DecidableEq, Repr

/-- Why a step is given no meaning. -/
inductive Refusal
  /-- Raised by no instruction of this model: every arm of `exec` has its meaning. Safe. -/
  | notModelled (mnemonic : String)
  /-- Raised by `step` when the host calls `reset()` while a run is in progress, which is not defined
  (R202, U2, D21). Safe. -/
  | resetDuringRun
  /-- Raised by `execWord` on a reserved decoded-instruction word, which has no meaning (R97, U19). Safe. -/
  | reservedWord
  deriving DecidableEq, Repr

/-- The registers after reset (R33; the zeros are decision D1, log entry 1). -/
def Regs.reset : Regs where
  ax := 0
  bx := 0
  cx := 0
  dx := 0
  si := 0
  di := 0
  sp := Config.spReset
  bp := 0
  ip := 0

/-- The flags after reset (R33; AF by the source, the others by decision D2, log entry 2). -/
def Flags.reset : Flags where
  ZF := false
  SF := false
  CF := false
  OF := false
  PF := false
  AF := false
  DF := false

/-- The machine right after reset (R33, R201): memory all zero, the scheduler idle, no program, nothing said
to the host, and no call of the host to come. -/
def State.reset : State where
  regs := Regs.reset
  flags := Flags.reset
  mem := []
  sched := .idle
  lc := 0
  program := []
  labelMap := []
  host := []
  hooks := []
  draws := 0
  checkPending := false
  moments := 0

end Sys2Proof.Machine
end

