-- ==== Sys2Proof/Machine/Ops.lean ====
section
/-! DEFINITION. The named operations of the units: the Register File's `getRegister` and `setRegister`, the Memory
Unit's byte and word accesses with their range check, the hooks, and the one operation by which an
instruction or a line fails. -/

namespace Sys2Proof.Machine

/-! ### The Register File (R11, R12) -/

/-- One register of the Register File. -/
def Regs.get (rs : Regs) : Reg → Word
  | .ax => rs.ax | .bx => rs.bx | .cx => rs.cx | .dx => rs.dx | .si => rs.si
  | .di => rs.di | .sp => rs.sp | .bp => rs.bp | .ip => rs.ip

/-- The Register File with one register replaced. -/
def Regs.set (rs : Regs) (r : Reg) (v : Word) : Regs :=
  match r with
  | .ax => { rs with ax := v } | .bx => { rs with bx := v } | .cx => { rs with cx := v }
  | .dx => { rs with dx := v } | .si => { rs with si := v } | .di => { rs with di := v }
  | .sp => { rs with sp := v } | .bp => { rs with bp := v } | .ip => { rs with ip := v }

/-- `getRegister(name)`, written `x[name]` (R11). -/
def getRegister (s : State) (r : Reg) : Word := s.regs.get r

/-- `setRegister(name, value)` for any integer, written `x[name] <- value` (R12). -/
def setRegister (s : State) (r : Reg) (v : Int) : State := { s with regs := s.regs.set r (wrap16 v) }

/-- All seven flags at once. -/
def setFlags (s : State) (f : Flags) : State := { s with flags := f }

/-! ### The memory array (R28) -/

/-- The byte at an address; an address not listed reads as 0, the value R33 gives every cell at reset. -/
def Memory.byteAt : Memory → Nat → Byte
  | [], _ => 0
  | (a', b') :: m, a => if a = a' then b' else Memory.byteAt m a

/-- The memory without an address: it reads as 0. -/
def Memory.remove : Memory → Nat → Memory
  | [], _ => []
  | (a', b') :: m, a => if a = a' then Memory.remove m a else (a', b') :: Memory.remove m a

/-- Put a cell in its place by rising address. -/
def Memory.insertCell (a : Nat) (b : Byte) : Memory → Memory
  | [] => [(a, b)]
  | (a', b') :: m => if a < a' then (a, b) :: (a', b') :: m else (a', b') :: Memory.insertCell a b m

/-- The memory with one byte replaced; a byte equal to what an unlisted address reads as is not listed. -/
def Memory.setByte (m : Memory) (a : Nat) (b : Byte) : Memory :=
  if b = 0 then m.remove a else Memory.insertCell a b (m.remove a)

/-- Canonical from address `lo` on: addresses strictly rising and inside the array, no zero byte listed. -/
def Memory.wfFrom : (lo : Nat) → Memory → Bool
  | _, [] => true
  | lo, (a, b) :: m => decide (lo ≤ a) && decide (a < Config.memSize) && decide (b ≠ 0) && Memory.wfFrom (a + 1) m

/-- The canonical form of memory: addresses strictly rising, none outside the array (R28), no entry equal to
what an unlisted address reads as. -/
def Memory.wf (m : Memory) : Bool := Memory.wfFrom 0 m

/-! ### The Memory Unit (R40 to R49) -/

/-- A byte access at `a` is in range (R47). -/
abbrev inRangeByte (a : Int) : Prop := 0 ≤ a ∧ a ≤ 0xFFFFF

/-- A word access at `a` is in range: both bytes exist (R47). -/
abbrev inRangeWord (a : Int) : Prop := 0 ≤ a ∧ a ≤ 0xFFFFE

/-- The invocation of a hook is recorded. -/
def invokeHook (s : State) (h : HookCall) : State := { s with hooks := s.hooks ++ [h] }

/-- `readByte(addr)` (R40). -/
def readByte (s : State) (a : Int) : Except ErrorKind Byte :=
  if inRangeByte a then .ok (s.mem.byteAt a.toNat) else .error .addressOutOfRange

/-- `writeByte(addr, byte)` (R41), with its notification (R49). -/
def writeByte (s : State) (a : Int) (b : Byte) : Except ErrorKind State :=
  if inRangeByte a then
    .ok (invokeHook { s with mem := s.mem.setByte a.toNat b } (.memoryChanged a.toNat 1))
  else .error .addressOutOfRange

/-- `readWord(addr)`: the low byte at `addr`, the high byte at `addr + 1` (R42, R44). -/
def readWord (s : State) (a : Int) : Except ErrorKind Word :=
  if inRangeWord a then .ok (wordOfBytes (s.mem.byteAt a.toNat) (s.mem.byteAt (a.toNat + 1)))
  else .error .addressOutOfRange

/-- The memory after the two byte writes of a word write, low byte first (R43, R48). -/
def Memory.setWord (m : Memory) (a : Nat) (v : Word) : Memory :=
  (m.setByte a (lowByte v)).setByte (a + 1) (highByte v)

/-- `writeWord(addr, value)` for any integer: checked first, so that a failing write writes nothing
(R43, R47), with its notification (R49). -/
def writeWord (s : State) (a : Int) (v : Int) : Except ErrorKind State :=
  if inRangeWord a then
    .ok (invokeHook { s with mem := s.mem.setWord a.toNat (wrap16 v) } (.memoryChanged a.toNat 2))
  else .error .addressOutOfRange

/-! ### What the host is told (R49, R191, R193) -/

/-- The state the host can observe (R31). -/
def snapshot (s : State) : Snapshot where
  regs := s.regs
  flags := s.flags
  mem := s.mem

/-- The state observation hook, after an executed instruction (R191). -/
def publishSnapshot (s : State) : State := invokeHook s (.observed (snapshot s))

/-- A moment inside an instruction, after one of its writes: the host may be shown the state, or not
(R31, D18, conflict C6; log entry 21). -/
def moment (s : State) : State :=
  { invokeHook s (.moment s.moments (snapshot s)) with moments := s.moments + 1 }

/-- The snapshots the host has been shown: the promised ones and, where the free value says so, those inside
instructions (R31, R191). -/
def shown : List HookCall → List Snapshot
  | [] => []
  | .observed v :: hs => v :: shown hs
  | .moment d v :: hs => if Config.shownInside d then v :: shown hs else shown hs
  | .memoryChanged _ _ :: hs => shown hs
  | .progress _ _ :: hs => shown hs
  | .error _ _ :: hs => shown hs

/-- The payloads of the notifications a write fires: one for each byte or one for the write, each of an open
content (R49, D23; log entry 6). -/
def notifications (addr width : Nat) : List Nat :=
  if Config.memNotifyPerByte then (List.range width).map (fun k => Config.memNotifyPayload (addr + k) 1)
  else [Config.memNotifyPayload addr width]

/-- The pair the error hook receives: the line number and the description of the kind (R193). -/
def errorReport (lineNumber : Nat) (kind : ErrorKind) : Nat × String := (lineNumber, Config.errorMessage kind)

/-- The numeric cause code of an error kind (R170, D15). -/
def causeCode : ErrorKind → Nat
  | .invalidInstructionFormat => 1
  | .unknownInstruction => 2
  | .unknownRegister => 3
  | .invalidOperand => 4
  | .invalidAddress => 5
  | .divideByZero => 6
  | .divisionOverflow => 7
  | .missingArguments => 8
  | .addressOutOfRange => 9

/-! ### The end of a run, and failing (R166, R181, R204) -/

/-- A run is in progress: the scheduler is Running or Stopping (R186, R187). -/
def State.busy (s : State) : Bool := decide (s.sched = .running) || decide (s.sched = .stopping)

/-- The run ends in scheduler state `q`: the Program and the Label Map are discarded, the stores keep their
values (R166, R204). -/
def endRun (q : Sched) (s : State) : State :=
  { s with sched := q, program := [], labelMap := [], checkPending := false }

/-- TAKING A FAILURE, the machine's one exception entry (R181, R182, R193): the run ends in Halted-Error, the
error hook is called once with the 1-based number of the current line, the line cursor does not move,
no register, flag or memory byte changes. There is no return from it (R183). -/
def raise (e : ErrorKind) (s : State) : State := endRun .haltedError (invokeHook s (.error (s.lc + 1) e))

end Sys2Proof.Machine
end

