-- ==== Sys2Proof/Machine/Operands.lean ====
section
/-! DEFINITION. The operand forms: the value of a resolved source (R90) and the two ways an effective address
arises (R120). -/

namespace Sys2Proof.Machine

/-- A resolved source operand that holds a value (R90). -/
inductive Source
  | reg (q : Reg)
  | imm (n : Word)
  deriving DecidableEq, Repr

/-- `value(o)` (R90). -/
def value (s : State) : Source → Word
  | .reg q => getRegister s q
  | .imm n => n

/-- The stack pointer after the decrement of a push, where the push stores (R115, R120 b). -/
def pushAddress (s : State) : Word := wrap16 (intOf (getRegister s .sp) - 2)

/-- The stack pointer before the increment of a pop, where the pop loads (R117, R120 b). -/
def popAddress (s : State) : Word := getRegister s .sp

end Sys2Proof.Machine
end

