-- ==== Sys2Proof/Machine/DataMovement.lean ====
section
/-! DEFINITION. The meanings of `mov`, `push` and `pop` (40_data_movement.md). No flag is written by any of them
(R21), and every failure is raised on the state before the instruction (R110). After each write there is a
moment at which the host may be shown the state (R31). -/

namespace Sys2Proof.Machine

/-- The outcome of an instruction. -/
abbrev Result := Host.Outcome State Fault Refusal

/-- `mov r, s` from a register or an immediate (R111). -/
def moveToRegister (r : Reg) (src : Source) (s : State) : Result :=
  .next (moment (setRegister s r (intOf (value s src))))

/-- `mov r, [a]` (R112). -/
def loadRegister (r : Reg) (a : Int) (s : State) : Result :=
  match readWord s a with
  | .error e => .next (raise e s)
  | .ok v => .next (moment (setRegister s r (intOf v)))

/-- `mov [a], s` (R113). -/
def storeValue (a : Int) (src : Source) (s : State) : Result :=
  match writeWord s a (intOf (value s src)) with
  | .error e => .next (raise e s)
  | .ok t => .next (moment t)

/-- `push s`: the operand is read first, then `sp` is decremented, then the word is written at the new `sp`
(R115, R110, D8). The range check never fails here (R52). -/
def pushValue (src : Source) (s : State) : Result :=
  match writeWord (moment (setRegister s .sp (intOf (getRegister s .sp) - 2))) (intOf (pushAddress s))
      (intOf (value s src)) with
  | .error e => .next (raise e s)
  | .ok t => .next (moment t)

/-- `sp <- sp + 2`, reading `sp` again (R117). -/
def bumpSp (s : State) : State := setRegister s .sp (intOf (getRegister s .sp) + 2)

/-- `pop r`: the word at `sp` goes to `r`, then `sp`, read again, is incremented (R117). The range check
never fails here (R52). -/
def popRegister (r : Reg) (s : State) : Result :=
  match readWord s (intOf (popAddress s)) with
  | .error e => .next (raise e s)
  | .ok v => .next (moment (bumpSp (moment (setRegister s r (intOf v)))))

/-- `mov r, r` (R111). -/
def execMovRegReg (dst src : Reg) (s : State) : Result := moveToRegister dst (.reg src) s

/-- `mov r, imm` (R111). -/
def execMovRegImm (dst : Reg) (imm : Word) (s : State) : Result := moveToRegister dst (.imm imm) s

/-- `mov r, [a]` (R112). -/
def execMovRegMem (dst : Reg) (addr : Int) (s : State) : Result := loadRegister dst addr s

/-- `mov [a], r` (R113). -/
def execMovMemReg (addr : Int) (src : Reg) (s : State) : Result := storeValue addr (.reg src) s

/-- `mov [a], imm` (R113). -/
def execMovMemImm (addr : Int) (imm : Word) (s : State) : Result := storeValue addr (.imm imm) s

/-- `push r` (R115, R116). -/
def execPushReg (src : Reg) (s : State) : Result := pushValue (.reg src) s

/-- `push imm` (R115, R116). -/
def execPushImm (imm : Word) (s : State) : Result := pushValue (.imm imm) s

/-- `pop r` (R117, R118). -/
def execPopReg (dst : Reg) (s : State) : Result := popRegister dst s

end Sys2Proof.Machine
end

