-- ==== Sys2Proof/Machine/Flags.lean ====
section
/-! DEFINITION. The Flag Unit's folding rule (R24, R25) and the direct write of CF and OF by `mul` (R22, R137). -/

namespace Sys2Proof.Machine

/-- The flags `UpdateFlags(result, carry, overflow)` leaves, from the raw, unmasked result (R24, R25). -/
def foldFlags (f : Flags) (result : Int) (carry overflow : Bool) : Flags where
  ZF := decide (wrap16 result = 0)
  SF := signBit (wrap16 result)
  CF := carry
  OF := overflow
  PF := decide (popcount (lowByte (wrap16 result)) % 2 = 0)
  AF := false
  DF := f.DF

/-- `UpdateFlags(result, carry, overflow)` (R24). -/
def updateFlags (s : State) (result : Int) (carry overflow : Bool) : State :=
  setFlags s (foldFlags s.flags result carry overflow)

/-- `f[CF] <- b`, the other flags untouched (R137). -/
def setCarry (s : State) (b : Bool) : State := setFlags s { s.flags with CF := b }

/-- `f[OF] <- b`, the other flags untouched (R137). -/
def setOverflow (s : State) (b : Bool) : State := setFlags s { s.flags with OF := b }

end Sys2Proof.Machine
end

