-- ==== Sys2Proof/Machine/Arithmetic.lean ====
section
/-! DEFINITION. The meanings of `add`, `sub`, `mul` and `div` (41_arithmetic.md section 2). None touches memory, and
each reads its operands before it writes (R110, R141). After each write there is a moment at which the host
may be shown the state (R31). -/

namespace Sys2Proof.Machine

/-- Write an ALU result to a register and fold the flags from the raw result (R135, R136). -/
def writeSum (r : Reg) (o : AluSum) (s : State) : State :=
  moment (updateFlags (moment (setRegister s r (intOf o.r))) o.raw o.carry o.overflow)

/-- `add r, s` (R135). -/
def addToRegister (r : Reg) (src : Source) (s : State) : Result :=
  .next (writeSum r (aluAdd (getRegister s r) (value s src)) s)

/-- `sub r, s` (R136). -/
def subFromRegister (r : Reg) (src : Source) (s : State) : Result :=
  .next (writeSum r (aluSub (getRegister s r) (value s src)) s)

/-- Write a product to `ax` and its size to CF and then to OF (R137). -/
def writeProduct (o : AluProduct) (s : State) : State :=
  moment (setOverflow (moment (setCarry (moment (setRegister s .ax (intOf o.r))) o.big)) o.big)

/-- `mul s` (R137). -/
def mulAx (src : Source) (s : State) : Result :=
  .next (writeProduct (aluMul (getRegister s .ax) (value s src)) s)

/-- Write a quotient to `ax` and a remainder to `dx` (R138). -/
def writeQuotient (o : AluQuotient) (s : State) : State :=
  moment (setRegister (moment (setRegister s .ax (o.q : Int))) .dx (o.m : Int))

/-- `div s`: both failures are tested before anything is written (R138); no flag is written (D7). -/
def divAx (src : Source) (s : State) : Result :=
  if value s src = 0 then .next (raise .divideByZero s)
  else if (aluDiv (getRegister s .ax) (value s src)).q > 0xFFFF then .next (raise .divisionOverflow s)
  else .next (writeQuotient (aluDiv (getRegister s .ax) (value s src)) s)

/-- `add r, r` (R135). -/
def execAddRegReg (dst src : Reg) (s : State) : Result := addToRegister dst (.reg src) s

/-- `add r, imm` (R135). -/
def execAddRegImm (dst : Reg) (imm : Word) (s : State) : Result := addToRegister dst (.imm imm) s

/-- `sub r, r` (R136). -/
def execSubRegReg (dst src : Reg) (s : State) : Result := subFromRegister dst (.reg src) s

/-- `sub r, imm` (R136). -/
def execSubRegImm (dst : Reg) (imm : Word) (s : State) : Result := subFromRegister dst (.imm imm) s

/-- `mul r` (R137). -/
def execMulReg (src : Reg) (s : State) : Result := mulAx (.reg src) s

/-- `mul imm` (R137). -/
def execMulImm (imm : Word) (s : State) : Result := mulAx (.imm imm) s

/-- `div r` (R138). -/
def execDivReg (src : Reg) (s : State) : Result := divAx (.reg src) s

/-- `div imm` (R138). -/
def execDivImm (imm : Word) (s : State) : Result := divAx (.imm imm) s

end Sys2Proof.Machine
end

