-- ==== Sys2Proof/Machine/Dispatch.lean ====
section
/-! DEFINITION. One arm for each constructor of `Instr`: its meaning. -/

namespace Sys2Proof.Machine

/-- The effect of an instruction (40_data_movement.md, 41_arithmetic.md). -/
def exec (i : Instr) (s : State) : Host.Outcome State Fault Refusal :=
  match i with
  | .movRegReg dst src => Sys2Proof.Machine.execMovRegReg dst src s
  | .movRegImm dst imm => Sys2Proof.Machine.execMovRegImm dst imm s
  | .movRegMem dst addr => Sys2Proof.Machine.execMovRegMem dst addr s
  | .movMemReg addr src => Sys2Proof.Machine.execMovMemReg addr src s
  | .movMemImm addr imm => Sys2Proof.Machine.execMovMemImm addr imm s
  | .pushReg src => Sys2Proof.Machine.execPushReg src s
  | .pushImm imm => Sys2Proof.Machine.execPushImm imm s
  | .popReg dst => Sys2Proof.Machine.execPopReg dst s
  | .addRegReg dst src => Sys2Proof.Machine.execAddRegReg dst src s
  | .addRegImm dst imm => Sys2Proof.Machine.execAddRegImm dst imm s
  | .subRegReg dst src => Sys2Proof.Machine.execSubRegReg dst src s
  | .subRegImm dst imm => Sys2Proof.Machine.execSubRegImm dst imm s
  | .mulReg src => Sys2Proof.Machine.execMulReg src s
  | .mulImm imm => Sys2Proof.Machine.execMulImm imm s
  | .divReg src => Sys2Proof.Machine.execDivReg src s
  | .divImm imm => Sys2Proof.Machine.execDivImm imm s

end Sys2Proof.Machine
end

