-- ==== Sys2Proof/WellFormed.lean ====
section
/-! DEFINITION. Which instructions the 64-bit decoded-instruction word (DIW) carries exactly (R97 to R99).
Every `Instr` is the decoding of some line of text; the DIW loses the value of an out-of-range
address (R98), and `WellFormed` is the condition that nothing is lost. -/

namespace Sys2Proof

/-- The address is one of the 2^20 that a memory has (R28), so that the DIW field `addr` holds it (R95). -/
def addrInArray (a : Int) : Bool := decide (0 ≤ a) && decide (a < Config.memSize)

/-- The address that a DIW with `ao = 1` is read as: the lowest one past the array, as in R98's own worked
example. DESIGN CHOICE, safe: log entry 3. -/
def outsideAddr : Int := 0x100000

/-- The address survives the DIW: inside the array, or the representative of those outside. -/
def addrExact (a : Int) : Bool := addrInArray a || decide (a = outsideAddr)

/-- The DIW of the instruction determines it (R98, R99). Registers and immediates are well formed by
their types. -/
def Instr.wellFormed : Instr → Bool
  | .movRegReg _ _ => true
  | .movRegImm _ _ => true
  | .movRegMem _ a => addrExact a
  | .movMemReg a _ => addrExact a
  | .movMemImm a _ => addrExact a
  | .pushReg _ => true
  | .pushImm _ => true
  | .popReg _ => true
  | .addRegReg _ _ => true
  | .addRegImm _ _ => true
  | .subRegReg _ _ => true
  | .subRegImm _ _ => true
  | .mulReg _ => true
  | .mulImm _ => true
  | .divReg _ => true
  | .divImm _ => true

/-- `wellFormed` as a proposition. -/
abbrev Instr.WellFormed (i : Instr) : Prop := i.wellFormed = true

end Sys2Proof
end

