-- ==== Sys2Proof/Decode.lean ====
section
/-! DEFINITION. The Instruction Decoder and the Operand Resolver, from a line of text to a decoded instruction
(30_encoding.md sections 1 to 4: the instruction proper, R99), an encoder back to text, and then the
64-bit decoded-instruction word, its decoder and its encoder (30_encoding.md section 7). -/

namespace Sys2Proof

/-! ### Characters (R70) -/

/-- Whitespace: space, horizontal tab, carriage return, vertical tab, form feed (R70, D17). The line feed is
the line break and stands in no line. -/
def isSpace (c : Char) : Bool :=
  c.toNat == 0x20 || c.toNat == 0x09 || c.toNat == 0x0D || c.toNat == 0x0B || c.toNat == 0x0C

/-- The value of a decimal digit. -/
def decValue (c : Char) : Option Nat :=
  if 48 ≤ c.toNat ∧ c.toNat ≤ 57 then some (c.toNat - 48) else none

/-- The value of a hexadecimal digit in either letter case (R80). -/
def hexValue (c : Char) : Option Nat :=
  if 48 ≤ c.toNat ∧ c.toNat ≤ 57 then some (c.toNat - 48)
  else if 97 ≤ c.toNat ∧ c.toNat ≤ 102 then some (c.toNat - 87)
  else if 65 ≤ c.toNat ∧ c.toNat ≤ 70 then some (c.toNat - 55)
  else none

/-- One character of `lower(s)`: ASCII `A` to `Z` become `a` to `z` (00_scope.md section 4). -/
def lowerChar (c : Char) : Char :=
  if 65 ≤ c.toNat ∧ c.toNat ≤ 90 then Char.ofNat (c.toNat + 32) else c

/-- `lower(s)`. -/
def lower (s : Text) : Text := s.map lowerChar

/-- A letter or `_`: what an identifier may begin with (R74). -/
def isIdentStart (c : Char) : Bool :=
  decide (65 ≤ c.toNat ∧ c.toNat ≤ 90) || decide (97 ≤ c.toNat ∧ c.toNat ≤ 122) || c.toNat == 95

/-- A letter, a digit or `_` (R74). -/
def isIdentRest (c : Char) : Bool := isIdentStart c || (decValue c).isSome

/-- The word matches `[A-Za-z_][A-Za-z0-9_]*` (R74 a). -/
def isIdentifier : Text → Bool
  | [] => false
  | c :: cs => isIdentStart c && cs.all isIdentRest

/-- `trim(s)` (00_scope.md section 4, R70). -/
def trim (s : Text) : Text := ((s.dropWhile isSpace).reverse.dropWhile isSpace).reverse

/-- Cut a text at every `sep`: `n` separators give `n + 1` pieces (R70 for lines, R76 for tokens). -/
def cutAt (sep : Char) : Text → List Text
  | [] => [[]]
  | c :: cs =>
    if c = sep then [] :: cutAt sep cs
    else match cutAt sep cs with
      | [] => [[c]]
      | p :: ps => (c :: p) :: ps

/-- The Program Loader's line sequence: the text cut at every LF (R70, D17; log entry 12). -/
def splitLines (text : Text) : List Text := cutAt '\n' text

/-- The stripped line: cut before the first `;`, then trimmed (R71). -/
def stripLine (line : Text) : Text := trim (line.takeWhile (fun c => c ≠ ';'))

/-! ### Integer literals, register names, memory forms (R80 to R82) -/

/-- The number a string of digits writes in base `base`, after the digits already read (R80). -/
def parseDigits (value : Char → Option Nat) (base : Nat) : Nat → Text → Option Nat
  | acc, [] => some acc
  | acc, c :: cs =>
    match value c with
    | some d => parseDigits value base (acc * base + d) cs
    | none => none

/-- The text begins with `0x` or `0X`. -/
def hexMarked (s : Text) : Bool := decide (s.take 2 = ['0', 'x']) || decide (s.take 2 = ['0', 'X'])

/-- `hex | dec` of R80. -/
def parseMagnitude (s : Text) : Option Nat :=
  if hexMarked s then
    if s.drop 2 = [] then none else parseDigits hexValue 16 0 (s.drop 2)
  else if s = [] then none
  else parseDigits decValue 10 0 s

/-- The integer a token writes when the whole of it matches `literal` of R80, else none. -/
def parseLiteral : Text → Option Int
  | [] => none
  | c :: cs =>
    if c = '-' then (parseMagnitude cs).map (fun n => -(n : Int))
    else if c = '+' then (parseMagnitude cs).map (fun n => (n : Int))
    else (parseMagnitude (c :: cs)).map (fun n => (n : Int))

/-- The name of a register (R10). -/
def Reg.name : Reg → Text
  | .ax => ['a', 'x'] | .bx => ['b', 'x'] | .cx => ['c', 'x'] | .dx => ['d', 'x'] | .si => ['s', 'i']
  | .di => ['d', 'i'] | .sp => ['s', 'p'] | .bp => ['b', 'p'] | .ip => ['i', 'p']

/-- The nine registers. -/
def Reg.all : List Reg := [.ax, .bx, .cx, .dx, .si, .di, .sp, .bp, .ip]

/-- The register a token names, in any letter case (R81). -/
def parseReg (tok : Text) : Option Reg := Reg.all.find? (fun r => decide (r.name = lower tok))

/-- The trimmed inner text of a memory form: at least two characters, `[` first and `]` last (R82). -/
def memoryInner : Text → Option Text
  | [] => none
  | c :: cs => if c = '[' ∧ cs.getLast? = some ']' then some (trim cs.dropLast) else none

/-! ### The Operand Resolver (R83 to R86, R91) -/

/-- A resolved source operand (30_encoding.md, `src`). -/
inductive Src
  | reg (r : Reg)
  | imm (n : Word)
  | mem (a : Int)
  deriving DecidableEq, Repr

/-- A resolved destination operand (30_encoding.md, `dst`). -/
inductive Dst
  | reg (r : Reg)
  | mem (a : Int)
  deriving DecidableEq, Repr

/-- `ResolveSrc(token)` (R83, R85, R86). -/
def resolveSrc (tok : Text) : Except ErrorKind Src :=
  match memoryInner tok with
  | some inner =>
    match parseLiteral inner with
    | some a => .ok (.mem a)
    | none => .error .invalidAddress
  | none =>
    match parseReg tok with
    | some r => .ok (.reg r)
    | none =>
      match parseLiteral tok with
      | some v => .ok (.imm (wrap16 v))
      | none => .error .invalidOperand

/-- `ResolveDst(token)` (R84, R85). -/
def resolveDst (tok : Text) : Except ErrorKind Dst :=
  match memoryInner tok with
  | some inner =>
    match parseLiteral inner with
    | some a => .ok (.mem a)
    | none => .error .invalidAddress
  | none =>
    match parseReg tok with
    | some r => .ok (.reg r)
    | none => .error .unknownRegister

/-! ### The Instruction Decoder (R72 to R78, R88, R89) -/

/-- The seven mnemonics (R1, R75). -/
inductive Op
  | mov | push | pop | add | sub | mul | div
  deriving DecidableEq, Repr

/-- The opcode word (R75). -/
def Op.name : Op → Text
  | .mov => ['m', 'o', 'v'] | .push => ['p', 'u', 's', 'h'] | .pop => ['p', 'o', 'p'] | .add => ['a', 'd', 'd']
  | .sub => ['s', 'u', 'b'] | .mul => ['m', 'u', 'l'] | .div => ['d', 'i', 'v']

/-- The seven opcodes. -/
def Op.all : List Op := [.mov, .push, .pop, .add, .sub, .mul, .div]

/-- How many operands the opcode takes (R77). -/
def Op.count : Op → Nat
  | .mov => 2 | .push => 1 | .pop => 1 | .add => 2 | .sub => 2 | .mul => 1 | .div => 1

/-- Opcode selection, in any letter case (R75). -/
def parseOp (word : Text) : Option Op := Op.all.find? (fun o => decide (o.name = lower word))

/-- The legal forms of `mov`; two memory forms fail with `InvalidOperand` (R88, D10). -/
def formMov : Dst → Src → Except ErrorKind Instr
  | .reg r, .reg q => .ok (.movRegReg r q)
  | .reg r, .imm n => .ok (.movRegImm r n)
  | .reg r, .mem a => .ok (.movRegMem r a)
  | .mem a, .reg q => .ok (.movMemReg a q)
  | .mem a, .imm n => .ok (.movMemImm a n)
  | .mem _, .mem _ => .error .invalidOperand

/-- The legal forms of `add` (R88, D9, D14), the destination checked before the source. -/
def formAdd : Dst → Src → Except ErrorKind Instr
  | .reg r, .reg q => .ok (.addRegReg r q)
  | .reg r, .imm n => .ok (.addRegImm r n)
  | .reg _, .mem _ => .error .invalidOperand
  | .mem _, _ => .error .unknownRegister

/-- The legal forms of `sub` (R88, D9, D14). -/
def formSub : Dst → Src → Except ErrorKind Instr
  | .reg r, .reg q => .ok (.subRegReg r q)
  | .reg r, .imm n => .ok (.subRegImm r n)
  | .reg _, .mem _ => .error .invalidOperand
  | .mem _, _ => .error .unknownRegister

/-- The legal form of `pop` (R88, D14). -/
def formPop : Dst → Except ErrorKind Instr
  | .reg r => .ok (.popReg r)
  | .mem _ => .error .unknownRegister

/-- The legal forms of `push` (R88, D9). -/
def formPush : Src → Except ErrorKind Instr
  | .reg q => .ok (.pushReg q)
  | .imm n => .ok (.pushImm n)
  | .mem _ => .error .invalidOperand

/-- The legal forms of `mul` (R88, D9). -/
def formMul : Src → Except ErrorKind Instr
  | .reg q => .ok (.mulReg q)
  | .imm n => .ok (.mulImm n)
  | .mem _ => .error .invalidOperand

/-- The legal forms of `div` (R88, D9). -/
def formDiv : Src → Except ErrorKind Instr
  | .reg q => .ok (.divReg q)
  | .imm n => .ok (.divImm n)
  | .mem _ => .error .invalidOperand

/-- Resolve the destination, then the source, then check the form: left to right (R89, D11). -/
def resolveBoth (form : Dst → Src → Except ErrorKind Instr) (d s : Text) : Except ErrorKind Instr :=
  match resolveDst d with
  | .error e => .error e
  | .ok dst =>
    match resolveSrc s with
    | .error e => .error e
    | .ok src => form dst src

/-- Resolve the one destination, then check the form (R89). -/
def resolveOneDst (form : Dst → Except ErrorKind Instr) (d : Text) : Except ErrorKind Instr :=
  match resolveDst d with
  | .error e => .error e
  | .ok dst => form dst

/-- Resolve the one source, then check the form (R89). -/
def resolveOneSrc (form : Src → Except ErrorKind Instr) (s : Text) : Except ErrorKind Instr :=
  match resolveSrc s with
  | .error e => .error e
  | .ok src => form src

/-- The operand count (R77), then the resolution and the form check of R89. -/
def decodeOperands (op : Op) (toks : List Text) : Except ErrorKind Instr :=
  match op, toks with
  | .mov, [d, s] => resolveBoth formMov d s
  | .add, [d, s] => resolveBoth formAdd d s
  | .sub, [d, s] => resolveBoth formSub d s
  | .pop, [d] => resolveOneDst formPop d
  | .push, [s] => resolveOneSrc formPush s
  | .mul, [s] => resolveOneSrc formMul s
  | .div, [s] => resolveOneSrc formDiv s
  | op, toks => .error (if toks.length < op.count then .missingArguments else .invalidInstructionFormat)

/-- The operand tokens of the operand-list text (R76). -/
def operandTokens (t : Text) : List Text := if t = [] then [] else (cutAt ',' t).map trim

/-- The opcode word of a stripped line: its longest prefix without whitespace (R73). -/
def opcodeWord (s : Text) : Text := s.takeWhile (fun c => !isSpace c)

/-- The operand-list text of a stripped line (R73). -/
def operandText (s : Text) : Text := trim (s.dropWhile (fun c => !isSpace c))

/-- The decode of an instruction line, in the fixed order of R89. -/
def decodeInstruction (s : Text) : Except ErrorKind Instr :=
  if isIdentifier (opcodeWord s) then
    match parseOp (opcodeWord s) with
    | none => .error .unknownInstruction
    | some op =>
      if (operandTokens (operandText s)).any (fun t => t.isEmpty) then .error .invalidInstructionFormat
      else decodeOperands op (operandTokens (operandText s))
  else .error .invalidInstructionFormat

/-- What a line decodes to: nothing to execute, an instruction, or a failure (30_encoding.md,
`DecodeLine`; R92). -/
inductive Decoded
  | noOp
  | instr (i : Instr)
  | failure (e : ErrorKind)
  deriving DecidableEq, Repr

/-- A stripped line that executes nothing: empty, or ending in `:` (R72, R160, R161). -/
def isNoOpLine (stripped : Text) : Bool := stripped.isEmpty || decide (stripped.getLast? = some ':')

/-- `DecodeLine(L)`, total on every line (R72, R89, R92). -/
def decodeLine (line : Text) : Decoded :=
  if isNoOpLine (stripLine line) then .noOp
  else match decodeInstruction (stripLine line) with
    | .ok i => .instr i
    | .error e => .failure e

/-- The Label Map: for each label line, the text before the colon in lower case and the line's zero-based
index, in line order, from line `idx` on (R161, R30). Log entry 10: no entry is dropped and nothing looks one up. -/
def labelsFrom : Nat → List Text → List (Text × Nat)
  | _, [] => []
  | idx, line :: rest =>
    if decide ((stripLine line).getLast? = some ':') then
      (lower (stripLine line).dropLast, idx) :: labelsFrom (idx + 1) rest
    else labelsFrom (idx + 1) rest

/-! ### From an instruction back to a line of text (the syntax of R93) -/

/-- The lower-case hexadecimal digit of a value below 16. -/
def hexChar (d : Nat) : Char := if d < 10 then Char.ofNat (48 + d) else Char.ofNat (87 + d)

/-- The hexadecimal digits of `n`, most significant first; `fuel + 1` digits are enough for `n < 16 ^ (fuel + 1)`. -/
def hexDigits : (fuel n : Nat) → Text
  | 0, n => [hexChar (n % 16)]
  | fuel + 1, n => if n < 16 then [hexChar n] else hexDigits fuel (n / 16) ++ [hexChar (n % 16)]

/-- A natural number as a hexadecimal literal of R80. -/
def hexText (n : Nat) : Text := '0' :: 'x' :: hexDigits n.log2 n

/-- An integer as a literal of R80. -/
def literalText (v : Int) : Text := if v < 0 then '-' :: hexText v.natAbs else hexText v.natAbs

/-- A memory form of R82. -/
def memoryText (a : Int) : Text := '[' :: (literalText a ++ [']'])

/-- A line of format F2 (R78). -/
def lineTwo (op : Op) (d s : Text) : Text := op.name ++ ' ' :: (d ++ ',' :: ' ' :: s)

/-- A line of format F1S or F1D (R78). -/
def lineOne (op : Op) (t : Text) : Text := op.name ++ ' ' :: t

/-- The line of text that stands for an instruction, with the syntax of R93. -/
def encodeLine : Instr → Text
  | .movRegReg r q => lineTwo .mov r.name q.name
  | .movRegImm r n => lineTwo .mov r.name (hexText n.toNat)
  | .movRegMem r a => lineTwo .mov r.name (memoryText a)
  | .movMemReg a q => lineTwo .mov (memoryText a) q.name
  | .movMemImm a n => lineTwo .mov (memoryText a) (hexText n.toNat)
  | .pushReg q => lineOne .push q.name
  | .pushImm n => lineOne .push (hexText n.toNat)
  | .popReg r => lineOne .pop r.name
  | .addRegReg r q => lineTwo .add r.name q.name
  | .addRegImm r n => lineTwo .add r.name (hexText n.toNat)
  | .subRegReg r q => lineTwo .sub r.name q.name
  | .subRegImm r n => lineTwo .sub r.name (hexText n.toNat)
  | .mulReg q => lineOne .mul q.name
  | .mulImm n => lineOne .mul (hexText n.toNat)
  | .divReg q => lineOne .div q.name
  | .divImm n => lineOne .div (hexText n.toNat)

/-! ### The decoded-instruction word (R95 to R99) -/

/-- The fields of a DIW, from bit 63 down (R95). -/
structure DiwFields where
  /-- Bits 63:60. -/
  op : BitVec 4
  /-- Bits 59:58, the destination kind. -/
  dk : BitVec 2
  /-- Bits 57:56, the source kind. -/
  sk : BitVec 2
  /-- Bits 55:52, the destination register. -/
  dr : BitVec 4
  /-- Bits 51:48, the source register. -/
  sr : BitVec 4
  /-- Bits 47:45, must be 0. -/
  zeroHigh : BitVec 3
  /-- Bit 44: the address lies outside 0 to 0xFFFFF. -/
  ao : BitVec 1
  /-- Bits 43:24, the address. -/
  addr : BitVec 20
  /-- Bits 23:8, the immediate. -/
  imm : BitVec 16
  /-- Bits 7:0, must be 0. -/
  zeroLow : BitVec 8
  deriving DecidableEq, Repr

/-- The 64-bit word made of the fields (R95). -/
def packDiw (f : DiwFields) : BitVec 64 :=
  f.op ++ (f.dk ++ (f.sk ++ (f.dr ++ (f.sr ++ (f.zeroHigh ++ (f.ao ++ (f.addr ++ (f.imm ++ f.zeroLow))))))))

/-- The fields of a 64-bit word (R95). -/
def unpackDiw (w : BitVec 64) : DiwFields where
  op := w.extractLsb' 60 4
  dk := w.extractLsb' 58 2
  sk := w.extractLsb' 56 2
  dr := w.extractLsb' 52 4
  sr := w.extractLsb' 48 4
  zeroHigh := w.extractLsb' 45 3
  ao := w.extractLsb' 44 1
  addr := w.extractLsb' 24 20
  imm := w.extractLsb' 8 16
  zeroLow := w.extractLsb' 0 8

/-- The DIW number of a register (R96). -/
def Reg.num : Reg → BitVec 4
  | .ax => 0 | .bx => 1 | .cx => 2 | .dx => 3 | .si => 4 | .di => 5 | .sp => 6 | .bp => 7 | .ip => 8

/-- The register of a DIW number; 9 to 15 are reserved (R96). -/
def regOfNum (n : BitVec 4) : Option Reg := Reg.all.find? (fun r => decide (r.num = n))

/-- Every field the form does not use is 0, and so are the two must-be-zero fields and the address of an
out-of-range access (R95, R97). -/
def DiwFields.onlyUses (f : DiwFields) (dr sr addr imm : Bool) : Bool :=
  (dr || decide (f.dr = 0)) && (sr || decide (f.sr = 0))
    && (if addr then decide (f.ao = 0) || decide (f.addr = 0) else decide (f.ao = 0) && decide (f.addr = 0))
    && (imm || decide (f.imm = 0)) && decide (f.zeroHigh = 0) && decide (f.zeroLow = 0)

/-- The address a DIW's `ao` and `addr` stand for (R95, R98); with `ao = 1` the exact value is lost. -/
def DiwFields.address (f : DiwFields) : Int := if f.ao = 0 then (f.addr.toNat : Int) else outsideAddr

/-- Apply a form's constructor to its destination register. -/
def withDr (f : DiwFields) (k : Reg → Instr) : Option Instr := (regOfNum f.dr).map k

/-- Apply a form's constructor to its source register. -/
def withSr (f : DiwFields) (k : Reg → Instr) : Option Instr := (regOfNum f.sr).map k

/-- Apply a form's constructor to its two registers. -/
def withDrSr (f : DiwFields) (k : Reg → Reg → Instr) : Option Instr :=
  (regOfNum f.dr).bind (fun r => (regOfNum f.sr).map (k r))

/-- The sixteen legal combinations of R97; every other word is reserved. -/
def instrOfFields (f : DiwFields) : Option Instr :=
  match f.op.toNat, f.dk.toNat, f.sk.toNat with
  | 0, 1, 1 => if f.onlyUses true true false false then withDrSr f .movRegReg else none
  | 0, 1, 2 => if f.onlyUses true false false true then withDr f (fun r => .movRegImm r f.imm) else none
  | 0, 1, 3 => if f.onlyUses true false true false then withDr f (fun r => .movRegMem r f.address) else none
  | 0, 2, 1 => if f.onlyUses false true true false then withSr f (fun q => .movMemReg f.address q) else none
  | 0, 2, 2 => if f.onlyUses false false true true then some (.movMemImm f.address f.imm) else none
  | 1, 0, 1 => if f.onlyUses false true false false then withSr f .pushReg else none
  | 1, 0, 2 => if f.onlyUses false false false true then some (.pushImm f.imm) else none
  | 2, 1, 0 => if f.onlyUses true false false false then withDr f .popReg else none
  | 3, 1, 1 => if f.onlyUses true true false false then withDrSr f .addRegReg else none
  | 3, 1, 2 => if f.onlyUses true false false true then withDr f (fun r => .addRegImm r f.imm) else none
  | 4, 1, 1 => if f.onlyUses true true false false then withDrSr f .subRegReg else none
  | 4, 1, 2 => if f.onlyUses true false false true then withDr f (fun r => .subRegImm r f.imm) else none
  | 5, 0, 1 => if f.onlyUses false true false false then withSr f .mulReg else none
  | 5, 0, 2 => if f.onlyUses false false false true then some (.mulImm f.imm) else none
  | 6, 0, 1 => if f.onlyUses false true false false then withSr f .divReg else none
  | 6, 0, 2 => if f.onlyUses false false false true then some (.divImm f.imm) else none
  | _, _, _ => none

/-- The instruction of a legal DIW; none for a reserved one (R97). -/
def decode (w : BitVec 64) : Option Instr := instrOfFields (unpackDiw w)

/-- The fields of a form that uses none but `op`, `dk` and `sk`. -/
def bareFields (op : BitVec 4) (dk sk : BitVec 2) : DiwFields where
  op := op
  dk := dk
  sk := sk
  dr := 0
  sr := 0
  zeroHigh := 0
  ao := 0
  addr := 0
  imm := 0
  zeroLow := 0

/-- Put a memory operand's address into the fields (R98). -/
def DiwFields.putAddr (f : DiwFields) (a : Int) : DiwFields :=
  if addrInArray a then { f with ao := 0, addr := BitVec.ofNat 20 a.toNat } else { f with ao := 1, addr := 0 }

/-- The fields of an instruction's DIW (R97, R98). -/
def fieldsOfInstr : Instr → DiwFields
  | .movRegReg r q => { bareFields 0 1 1 with dr := r.num, sr := q.num }
  | .movRegImm r n => { bareFields 0 1 2 with dr := r.num, imm := n }
  | .movRegMem r a => { bareFields 0 1 3 with dr := r.num }.putAddr a
  | .movMemReg a q => { bareFields 0 2 1 with sr := q.num }.putAddr a
  | .movMemImm a n => { bareFields 0 2 2 with imm := n }.putAddr a
  | .pushReg q => { bareFields 1 0 1 with sr := q.num }
  | .pushImm n => { bareFields 1 0 2 with imm := n }
  | .popReg r => { bareFields 2 1 0 with dr := r.num }
  | .addRegReg r q => { bareFields 3 1 1 with dr := r.num, sr := q.num }
  | .addRegImm r n => { bareFields 3 1 2 with dr := r.num, imm := n }
  | .subRegReg r q => { bareFields 4 1 1 with dr := r.num, sr := q.num }
  | .subRegImm r n => { bareFields 4 1 2 with dr := r.num, imm := n }
  | .mulReg q => { bareFields 5 0 1 with sr := q.num }
  | .mulImm n => { bareFields 5 0 2 with imm := n }
  | .divReg q => { bareFields 6 0 1 with sr := q.num }
  | .divImm n => { bareFields 6 0 2 with imm := n }

/-- The DIW of an instruction (R98). -/
def encode (i : Instr) : BitVec 64 := packDiw (fieldsOfInstr i)

/-- The instruction of an opcode-table word: the table's rows are DIWs of 64 bits, bit 0 the least
significant (R95). A narrower word stands for the DIW whose upper bits are 0; a wider one is none. -/
def decodeTableWord (nbits w : Nat) : Option Instr :=
  if nbits ≤ Config.diwBits then decode (BitVec.ofNat 64 (w % 2 ^ nbits)) else none

end Sys2Proof
end

