-- ==== Sys2Proof/Machine/Scheduler.lean ====
section
/-! DEFINITION. The Execution Scheduler around the instructions: fetching a line, moving the line cursor, the batch
boundary, the end of a run, and the host's calls `run`, `stop` and `reset` (42_sequencing_and_noops.md
section 2, 60_exceptions.md sections 4 and 5, 70_reset_and_hazards.md section 1). -/

namespace Sys2Proof.Machine

/-- The line at the line cursor; none when `lc` has reached the number of lines (R163). -/
def fetchLine (s : State) : Option Text := s.program[s.lc]?

/-- The number of lines `N` of the program (R163). -/
def totalLines (s : State) : Nat := s.program.length

/-- `lc` stands between two batches (R189). -/
def atBoundary (s : State) : Bool := decide (s.lc % Config.batch = 0)

/-- The line cursor moves on by one line (R163); the check at the boundary it leaves is past. -/
def bumpCursor (s : State) : State := { s with lc := s.lc + 1, checkPending := false }

/-- The progress hook, at the end of a batch (R190). -/
def publishProgress (s : State) : State := invokeHook s (.progress s.lc (totalLines s))

/-- A batch boundary is reached: a free value says whether the check for a stop request follows the yield to the
host or precedes it (R185, N30; log entry 5). -/
def reachBoundary (s : State) : State :=
  { s with checkPending := Config.checkFollowsYield s.draws, draws := s.draws + 1 }

/-- The boundary check: a pending stop request cancels the run (R185, R186). -/
def checkBoundary (s : State) : State := if s.sched = .stopping then endRun .idle s else s

/-- The yield between two batches (R189), with the boundary check now where it precedes the yield. -/
def yieldAtBoundary (s : State) : State :=
  if Config.checkFollowsYield s.draws then reachBoundary s else checkBoundary (reachBoundary s)

/-- What follows once the cursor has moved: at the end of the program the run is Halted-Ok (R166 a); at a
batch boundary progress is published and the scheduler yields (R185, R189, R190); elsewhere nothing. -/
def settleCursor (s : State) : State :=
  if totalLines s ≤ s.lc then endRun .haltedOk (publishProgress s)
  else if atBoundary s then yieldAtBoundary (publishProgress s)
  else s

/-- A line has been processed without a failure (R163). -/
def advanceLine (s : State) : State := settleCursor (bumpCursor s)

/-- After an instruction: a failure has ended the run (R181), else the snapshot is published (R191) and the
line is done. -/
def finishInstruction (s : State) : State :=
  if s.sched = .haltedError then s else advanceLine (publishSnapshot s)

/-! ### The host's calls (R186) -/

/-- The lines and the labels of a program, the cursor at line 0 (R186, `run`). -/
def loadProgram (lines : List Text) (s : State) : State :=
  { s with sched := .running, lc := 0, program := lines, labelMap := labelsFrom 0 lines, checkPending := false }

/-- Every store and the scheduler as after reset; what the host will do and the counters of the free values are
not the machine's to reset (R200, R201). The model's choice: the reset itself invokes no hook, neither the
memory-changed notification nor the state observation; the spec does not say (R49, C6; log entry 22). -/
def resetStores (s : State) : State := { State.reset with host := s.host, draws := s.draws, moments := s.moments }

/-- `run(programText)`: rejected while a run is in progress (R187), else the stores are reset and the program
is started (R186, R200 a). Line 0 counts as a batch boundary (log entry 5). -/
def hostRun (text : Text) (s : State) : State :=
  if s.busy then s else reachBoundary (loadProgram (splitLines text) (resetStores s))

/-- `stop()`: while Running the request is recorded, otherwise it does nothing (R185, R186). -/
def hostStop (s : State) : State := if s.sched = .running then { s with sched := .stopping } else s

/-- `reset()`: not defined while a run is in progress (R202, D21), else the stores are reset and the
scheduler is Idle (R186, R200 b, R201). -/
def hostReset (s : State) : Host.Outcome State Fault Refusal :=
  if s.busy then .refused .resetDuringRun else .next (resetStores s)

end Sys2Proof.Machine
end

