-- ==== Sys2Proof/Machine/Step.lean ====
section
/-! DEFINITION. One step of the machine (R163, R186): the host's next call if it has one to make here, else one line
of the program; and the executor's port for a decoded-instruction word (R97, R98). -/

namespace Sys2Proof.Machine

/-- Execute a decoded instruction as a line of the program (R163). -/
def runInstruction (i : Instr) (s : State) : Host.Outcome State Fault Refusal :=
  match exec i s with
  | .next t => .next (finishInstruction t)
  | .fault f => .fault f
  | .refused r => .refused r

/-- Process one line (R163). -/
def runLine (line : Text) (s : State) : Host.Outcome State Fault Refusal :=
  match decodeLine line with
  | .noOp => .next (advanceLine s)
  | .instr i => runInstruction i s
  | .failure e => .next (raise e s)

/-- A stop request is pending and the boundary check that will see it is still to come (R185, N30). -/
def State.cancelDue (s : State) : Bool := s.checkPending && decide (s.sched = .stopping)

/-- The scheduler's step: the boundary check that cancels the run where it is due (R185, R186), else one line while
a run is in progress (R163), the end of the run when no line is left (R166), and otherwise it waits for the
host (log entry 4). -/
def schedulerStep (s : State) : Host.Outcome State Fault Refusal :=
  if s.busy then
    if s.cancelDue then .next (checkBoundary s)
    else
      match fetchLine s with
      | some line => runLine line s
      | none => .next (endRun .haltedOk s)
  else .next s

/-- One step: the host's next move, or the scheduler's step where the host makes none (R6, R186). -/
def step (s : State) : Host.Outcome State Fault Refusal :=
  match s.host with
  | [] => schedulerStep s
  | .wait :: rest => schedulerStep { s with host := rest }
  | .run text :: rest => .next (hostRun text { s with host := rest })
  | .stop :: rest => .next (hostStop { s with host := rest })
  | .reset :: rest => hostReset { s with host := rest }

/-- The executor on a raw decoded-instruction word: a reserved one has no meaning (R97, U19). -/
def execWord (w : BitVec 64) (s : State) : Host.Outcome State Fault Refusal :=
  match decode w with
  | some i => exec i s
  | none => .refused .reservedWord

/-- The line of text that stands for an opcode-table word; a reserved word has none, and in its place stands
a line that the decoder rejects (log entry 11). -/
def lineOfTableWord (nbits w : Nat) : Text :=
  match decodeTableWord nbits w with
  | some i => encodeLine i
  | none => ['?']

/-- A run of the one-line program that stands for the word is in progress, its line not yet processed, and the
host makes no call: the next step fetches and runs exactly that instruction (log entry 11). -/
def State.withFetchWord (s : State) (nbits w : Nat) : State :=
  loadProgram [lineOfTableWord nbits w] { s with host := [] }

end Sys2Proof.Machine
end

