-- ==== Sys2Proof/Safety.lean ====
section
/-! DEFINITION. The terms claims are made in: the invariant of the machine, what an instruction leaves unchanged, which
registers and flags each instruction reads and writes (R13, R22), and who moves next. -/

namespace Sys2Proof

/-! ### The read and write tables (R13, R22, R50) -/

/-- The registers an instruction may write, named or not (R13). -/
def Instr.writes : Instr → List Reg
  | .movRegReg r _ => [r]
  | .movRegImm r _ => [r]
  | .movRegMem r _ => [r]
  | .movMemReg _ _ => []
  | .movMemImm _ _ => []
  | .pushReg _ => [.sp]
  | .pushImm _ => [.sp]
  | .popReg r => [r, .sp]
  | .addRegReg r _ => [r]
  | .addRegImm r _ => [r]
  | .subRegReg r _ => [r]
  | .subRegImm r _ => [r]
  | .mulReg _ => [.ax]
  | .mulImm _ => [.ax]
  | .divReg _ => [.ax, .dx]
  | .divImm _ => [.ax, .dx]

/-- The registers an instruction reads, named or not (R13). -/
def Instr.reads : Instr → List Reg
  | .movRegReg _ q => [q]
  | .movRegImm _ _ => []
  | .movRegMem _ _ => []
  | .movMemReg _ q => [q]
  | .movMemImm _ _ => []
  | .pushReg q => [q, .sp]
  | .pushImm _ => [.sp]
  | .popReg _ => [.sp]
  | .addRegReg r q => [r, q]
  | .addRegImm r _ => [r]
  | .subRegReg r q => [r, q]
  | .subRegImm r _ => [r]
  | .mulReg q => [.ax, q]
  | .mulImm _ => [.ax]
  | .divReg q => [.ax, q]
  | .divImm _ => [.ax]

/-- The instructions that store to memory: `mov` to a memory form, and `push` (R50, C11). -/
def Instr.stores : Instr → Bool
  | .movMemReg _ _ | .movMemImm _ _ | .pushReg _ | .pushImm _ => true
  | .movRegReg _ _ | .movRegImm _ _ | .movRegMem _ _ | .popReg _ | .addRegReg _ _ | .addRegImm _ _
  | .subRegReg _ _ | .subRegImm _ _ | .mulReg _ | .mulImm _ | .divReg _ | .divImm _ => false

/-- How the flags may change: the rows of R22. -/
inductive FlagRow
  /-- Every flag but DF is written, AF with 0: `add`, `sub`. -/
  | all
  /-- CF and OF are written: `mul`. -/
  | carryOverflow
  /-- No flag is written. -/
  | none
  deriving DecidableEq, Repr

/-- The row of R22 for an instruction. -/
def Instr.flagRow : Instr → FlagRow
  | .addRegReg _ _ | .addRegImm _ _ | .subRegReg _ _ | .subRegImm _ _ => .all
  | .mulReg _ | .mulImm _ => .carryOverflow
  | .movRegReg _ _ | .movRegImm _ _ | .movRegMem _ _ | .movMemReg _ _ | .movMemImm _ _ | .pushReg _
  | .pushImm _ | .popReg _ | .divReg _ | .divImm _ => .none

/-- The signed reading of a word, `s(v)` (R140). -/
def signedReading (v : Word) : Int := if v.toNat < 32768 then (v.toNat : Int) else (v.toNat : Int) - 65536

end Sys2Proof

namespace Sys2Proof.Machine

/-! ### Frames -/

/-- Every register outside the list is unchanged. -/
def keepsRegsExcept (rs : List Reg) (s t : State) : Prop := ∀ q, q ∉ rs → getRegister t q = getRegister s q

/-- Every byte of memory reads as before. -/
def keepsMemory (s t : State) : Prop := ∀ b : Int, readByte t b = readByte s b

/-- Every byte of memory outside the word at `a` reads as before. -/
def keepsMemoryExceptWord (a : Int) (s t : State) : Prop :=
  ∀ b : Int, b ≠ a → b ≠ a + 1 → readByte t b = readByte s b

/-- Everything that decides which line is processed next is unchanged (R30, R163). -/
def keepsSequencing (s t : State) : Prop :=
  t.sched = s.sched ∧ t.lc = s.lc ∧ t.program = s.program ∧ t.labelMap = s.labelMap ∧ t.host = s.host
    ∧ t.draws = s.draws ∧ t.checkPending = s.checkPending

/-- A hook invocation that is made for certain: any but one at a moment inside an instruction (R31, D18). -/
def HookCall.certain : HookCall → Bool
  | .moment _ _ => false
  | .memoryChanged _ _ => true
  | .observed _ => true
  | .progress _ _ => true
  | .error _ _ => true

/-- The hook invocations that are made for certain. -/
def certainCalls (hs : List HookCall) : List HookCall := hs.filter HookCall.certain

/-- From `s` to `t` the host has certainly been told these things and nothing else; about what it is shown inside
an instruction this says nothing (R31). -/
def tellsHost (calls : List HookCall) (s t : State) : Prop := certainCalls t.hooks = certainCalls s.hooks ++ calls

/-- The host may be shown the state `v` between `s` and `t`: the moment is on record with a number of its own, and
the free value of that number says whether it is (R31, U12; log entry 21). -/
def mayBeShown (v s t : State) : Prop := ∃ d, s.moments ≤ d ∧ HookCall.moment d (snapshot v) ∈ t.hooks

/-- The three architectural stores are unchanged (R181, R182). -/
def keepsStores (s t : State) : Prop := t.regs = s.regs ∧ t.flags = s.flags ∧ t.mem = s.mem

/-! ### What an instruction does and leaves alone -/

/-- Nothing but the listed registers may have changed. -/
def changesOnlyRegs (rs : List Reg) (s t : State) : Prop :=
  keepsRegsExcept rs s t ∧ t.flags = s.flags ∧ keepsMemory s t ∧ tellsHost [] s t ∧ keepsSequencing s t

/-- Nothing but the listed registers and the flags may have changed. -/
def changesOnlyRegsAndFlags (rs : List Reg) (s t : State) : Prop :=
  keepsRegsExcept rs s t ∧ keepsMemory s t ∧ tellsHost [] s t ∧ keepsSequencing s t

/-- Nothing but the listed registers and the word of memory at `a` may have changed, and one write is recorded
for the host; how many notifications that is and what they hold is open (R49, D23; log entry 6). -/
def changesOnlyRegsAndWord (rs : List Reg) (a : Int) (s t : State) : Prop :=
  keepsRegsExcept rs s t ∧ t.flags = s.flags ∧ keepsMemoryExceptWord a s t
    ∧ tellsHost [.memoryChanged a.toNat 2] s t ∧ keepsSequencing s t

/-- The two bytes at `a` hold the word `v`, low byte first (R43, R44). -/
def holdsWord (a : Int) (v : Word) (t : State) : Prop :=
  ∃ lo hi : Byte, readByte t a = .ok lo ∧ readByte t (a + 1) = .ok hi
    ∧ lo.toNat = v.toNat % 256 ∧ hi.toNat = v.toNat / 256

/-- ZF, SF, PF and AF are those of the 16-bit result `r`, and DF is as before (R24, R25). -/
def resultFlags (r : Word) (s t : State) : Prop :=
  t.flags.ZF = decide (r.toNat = 0) ∧ t.flags.SF = decide (32768 ≤ r.toNat)
    ∧ t.flags.PF = decide ((List.range 8).countP (fun i => r.getLsbD i) % 2 = 0)
    ∧ t.flags.AF = false ∧ t.flags.DF = s.flags.DF

/-- What `add` of the value `b` to register `r` leaves (R131, R135). -/
def addEffect (r : Reg) (b : Word) (s t : State) : Prop :=
  (getRegister t r).toNat = ((getRegister s r).toNat + b.toNat) % 65536
    ∧ t.flags.CF = decide ((getRegister s r).toNat + b.toNat > 0xFFFF)
    ∧ t.flags.OF = decide (signBit (getRegister s r) = signBit b ∧ signBit (getRegister t r) ≠ signBit (getRegister s r))
    ∧ resultFlags (getRegister t r) s t ∧ changesOnlyRegsAndFlags [r] s t

/-- What `sub` of the value `b` from register `r` leaves (R132, R136). -/
def subEffect (r : Reg) (b : Word) (s t : State) : Prop :=
  (getRegister t r).toNat = ((getRegister s r).toNat + (65536 - b.toNat)) % 65536
    ∧ t.flags.CF = decide ((getRegister s r).toNat < b.toNat)
    ∧ t.flags.OF = decide (signBit (getRegister s r) ≠ signBit b ∧ signBit (getRegister t r) = signBit b)
    ∧ resultFlags (getRegister t r) s t ∧ changesOnlyRegsAndFlags [r] s t

/-- What `mul` by the value `b` leaves: `ax`, CF and OF, and nothing else (R133, R137). -/
def mulEffect (b : Word) (s t : State) : Prop :=
  (getRegister t .ax).toNat = (getRegister s .ax).toNat * b.toNat % 65536
    ∧ t.flags.CF = decide ((getRegister s .ax).toNat * b.toNat > 0xFFFF)
    ∧ t.flags.OF = decide ((getRegister s .ax).toNat * b.toNat > 0xFFFF)
    ∧ t.flags.ZF = s.flags.ZF ∧ t.flags.SF = s.flags.SF ∧ t.flags.PF = s.flags.PF
    ∧ t.flags.AF = s.flags.AF ∧ t.flags.DF = s.flags.DF ∧ changesOnlyRegsAndFlags [.ax] s t

/-- What `div` by a value `b` other than 0 leaves (R134, R138), and what the host may see between its two writes
(R31); that the flags are unchanged is decision D7. -/
def divEffect (b : Word) (s t : State) : Prop :=
  (getRegister t .ax).toNat = (getRegister s .ax).toNat / b.toNat
    ∧ (getRegister t .dx).toNat = (getRegister s .ax).toNat % b.toNat ∧ changesOnlyRegs [.ax, .dx] s t
    ∧ mayBeShown (setRegister s .ax (((getRegister s .ax).toNat / b.toNat : Nat) : Int)) s t

/-- What `push` of the value `v` leaves (R115): `sp` lower by 2, and the word at the new `sp`; and what the host may
see between the two writes (R31). -/
def pushEffect (v : Word) (s t : State) : Prop :=
  (getRegister t .sp).toNat = ((getRegister s .sp).toNat + 65534) % 65536
    ∧ getRegister t .sp = pushAddress s ∧ holdsWord (intOf (pushAddress s)) v t
    ∧ changesOnlyRegsAndWord [.sp] (intOf (pushAddress s)) s t
    ∧ mayBeShown (setRegister s .sp (intOf (getRegister s .sp) - 2)) s t

/-! ### Who moves next -/

/-- The host makes no call at this boundary: the scheduler moves. -/
def hostQuiet (s : State) : Prop := s.host = [] ∨ ∃ rest, s.host = .wait :: rest

/-- The state once the host's move at this boundary is taken from what it has yet to do. -/
def takeMove (s : State) : State := { s with host := s.host.tail }

/-- The progress hook that processing the line at the cursor invokes: after the last line of a batch of 100 lines
and after the last line of the program (R189, R190). -/
def progressDue (s : State) : List HookCall :=
  if (s.lc + 1) % 100 = 0 ∨ s.lc + 1 = s.program.length then [.progress (s.lc + 1) s.program.length] else []

/-- The scheduler's next move processes the line at the cursor, if one is left: a run is in progress, and the
boundary check is not about to cancel it (R163, R185). -/
def State.lineDue (s : State) : Bool := s.busy && !s.cancelDue

/-- A stop request is pending and no line from `b` on will be processed: the cursor stands before line `b`, or at
it with the boundary check still to come (R185). -/
def stopsBefore (b : Nat) (s : State) : Prop := s.sched = .stopping ∧ (s.lc < b ∨ (s.lc = b ∧ s.checkPending = true))

/-- The run is over and no line from `b` on has been processed. -/
def stoppedBy (b : Nat) (s : State) : Prop := s.busy = false ∧ s.lc ≤ b

/-! ### The invariant -/

/-- The error hooks among some hook invocations. -/
def errorCalls : List HookCall → List HookCall
  | [] => []
  | .error n e :: hs => .error n e :: errorCalls hs
  | .memoryChanged _ _ :: hs => errorCalls hs
  | .observed _ :: hs => errorCalls hs
  | .moment _ _ :: hs => errorCalls hs
  | .progress _ _ :: hs => errorCalls hs

/-- What holds in every state of the machine that a run reaches. -/
structure State.Inv (s : State) : Prop where
  /-- Memory is in canonical form, inside the array (R28). -/
  memory : s.mem.wf = true
  /-- AF reads 0 (R23). -/
  auxiliary : s.flags.AF = false
  /-- DF keeps its reset value (R23). -/
  direction : s.flags.DF = false
  /-- A run in progress has a line left to process (R163, R166). -/
  cursor : s.busy = true → s.lc < s.program.length
  /-- The Label Map of a run in progress is the one built from its program (R30). -/
  labels : s.busy = true → s.labelMap = labelsFrom 0 s.program
  /-- Outside a run there is neither program nor Label Map (R204). -/
  discarded : s.busy = false → s.program = [] ∧ s.labelMap = []
  /-- A boundary check is to come only during a run and at a batch boundary (R185). -/
  check : s.checkPending = true → s.busy = true ∧ s.lc % 100 = 0
  /-- The error hook has been invoked once if the run ended in Halted-Error and never otherwise (R181, R192). -/
  errors : (errorCalls s.hooks).length = if s.sched = .haltedError then 1 else 0

/-- A run that has not failed (R166): the safe states. -/
def State.notFailed (s : State) : Prop := s.sched ≠ .haltedError

end Sys2Proof.Machine
end

