-- ==== Sys2Proof/Certificates/Slice0/Obligations.lean ====
section
/-! DEFINITION. The statements about the model for the provers, one `def Obligations.<Name> : Prop` each. -/

open Sys2Proof Sys2Proof.Machine

/-! ### Lines of text and decoded-instruction words -/

/-- Every instruction has a line of text, in the syntax of R93, that decodes to it, with every register,
immediate and integer address. The encoder is the model's own. -/
def Obligations.LineOfInstructionDecodesToIt : Prop :=
  ∀ i : Instr, decodeLine (encodeLine i) = .instr i

/-- The DIW of every instruction whose address it can hold decodes to the instruction (R95 to R98, decision
D16; what `ao = 1` reads as is log entry 3). -/
def Obligations.WordOfInstructionDecodesToIt : Prop :=
  ∀ i : Instr, i.WellFormed → decode (encode i) = some i

/-- A legal DIW is the word of the one instruction it decodes to: no bit of it is ignored (R97, D16). -/
def Obligations.DecodedWordIsTheInstructionsWord : Prop :=
  ∀ (w : BitVec 64) (i : Instr), decode w = some i → encode i = w ∧ i.WellFormed

/-- The executor refuses exactly the words that are no instruction's DIW (R97: every other 64-bit value is
reserved; U19). -/
def Obligations.ReservedWordsAreRefused : Prop :=
  ∀ (w : BitVec 64) (s : State),
    execWord w s = .refused .reservedWord ↔ ¬ ∃ i : Instr, i.WellFormed ∧ encode i = w

/-- Executing the DIW of any decoded line is executing the line, also where the DIW loses an out-of-range
address (R98), so lines with the same DIW behave the same (R99). -/
def Obligations.WordExecutesAsItsInstruction : Prop :=
  (∀ (i : Instr) (s : State), execWord (encode i) s = exec i s)
    ∧ ∀ (l l' : Text) (i i' : Instr) (s : State), decodeLine l = .instr i → decodeLine l' = .instr i' →
        encode i = encode i' → exec i s = exec i' s

/-- Letter case changes nothing in what a line decodes to (R75, R79, R80, R81). -/
def Obligations.LetterCaseIsIgnored : Prop :=
  ∀ l : Text, decodeLine (lower l) = decodeLine l

/-- Stripping cuts a line before its first `;`, wherever it stands, and trims it; the rest has no effect (R71). -/
def Obligations.CommentIsStripped : Prop :=
  (∀ l c : Text, stripLine (l ++ ';' :: c) = stripLine l ∧ decodeLine (l ++ ';' :: c) = decodeLine l)
    ∧ ∀ l : Text, ';' ∉ l → stripLine l = trim l

/-- A line is a no-op exactly when its stripped form is empty or ends in `:` (R72), whatever stands before. -/
def Obligations.NoOpLinesAreBlankOrLabel : Prop :=
  ∀ l : Text, decodeLine l = .noOp ↔ (stripLine l = [] ∨ (stripLine l).getLast? = some ':')

/-- The decoder fails with one of six kinds only; the other three belong to execution (R92, R170). -/
def Obligations.DecoderFailsWithSixKinds : Prop :=
  ∀ (l : Text) (e : ErrorKind), decodeLine l = .failure e →
    e = .invalidInstructionFormat ∨ e = .unknownInstruction ∨ e = .missingArguments ∨ e = .unknownRegister
      ∨ e = .invalidOperand ∨ e = .invalidAddress

/-- An instruction line whose opcode word is an identifier and, in lower case, none of the seven mnemonics
fails with `UnknownInstruction` (R75, R172), and a word that is no identifier with
`InvalidInstructionFormat` before that (R74, R180, decisions D11 and D13). -/
def Obligations.UnknownOpcodeFails : Prop :=
  ∀ l : Text, isNoOpLine (stripLine l) = false →
    (isIdentifier (opcodeWord (stripLine l)) = true → (∀ o : Op, lower (opcodeWord (stripLine l)) ≠ o.name) →
        decodeLine l = .failure .unknownInstruction)
      ∧ (isIdentifier (opcodeWord (stripLine l)) = false → decodeLine l = .failure .invalidInstructionFormat)

/-- The worked examples of R98 and of 95_test_vectors.md section 2.1: words of the spec decode to the
instructions they stand for. -/
def Obligations.SpecWordsDecode : Prop :=
  decode 0x0610000000000A00 = some (.movRegImm .bx 10)
    ∧ decode 0x0901000064000000 = some (.movMemReg 100 .bx)
    ∧ decode 0x0720000064000000 = some (.movRegMem .cx 100)
    ∧ decode 0x0A00000010001F00 = some (.movMemImm 16 0x1F)
    ∧ decode 0x1106000000000000 = some (.pushReg .sp)
    ∧ decode 0x2460000000000000 = some (.popReg .sp)
    ∧ decode 0x3600000000000100 = some (.addRegImm .ax 1)
    ∧ decode 0x4544000000000000 = some (.subRegReg .si .si)
    ∧ decode 0x5100000000000000 = some (.mulReg .ax)
    ∧ decode 0x6102000000000000 = some (.divReg .cx)

/-! ### The units -/

/-- The wrap law, with either remainder (R7). -/
def Obligations.WrapLaw : Prop :=
  ∀ v : Int, ((wrap16 v).toNat : Int) = (v.emod 65536 + 65536).emod 65536
    ∧ ((wrap16 v).toNat : Int) = (v.tmod 65536 + 65536).tmod 65536

/-- `setRegister` stores the wrapped value in its register and changes nothing else (R12). -/
def Obligations.SetRegisterThenGetRegister : Prop :=
  ∀ (s : State) (r : Reg) (v : Int),
    getRegister (setRegister s r v) r = wrap16 v
      ∧ (∀ q, q ≠ r → getRegister (setRegister s r v) q = getRegister s q)
      ∧ { setRegister s r v with regs := s.regs } = s

/-- The Flag Unit's folding rule, all seven flags, and nothing else written (R24). -/
def Obligations.UpdateFlagsFoldsTheResult : Prop :=
  ∀ (s : State) (result : Int) (carry overflow : Bool),
    let t := updateFlags s result carry overflow
    let r16 := wrap16 result
    t.flags.ZF = decide (r16.toNat = 0) ∧ t.flags.SF = r16.getLsbD 15 ∧ t.flags.CF = carry
      ∧ t.flags.OF = overflow
      ∧ t.flags.PF = decide ((List.range 8).countP (fun i => r16.getLsbD i) % 2 = 0)
      ∧ t.flags.AF = false ∧ t.flags.DF = s.flags.DF ∧ { t with flags := s.flags } = s

/-- PF looks at bits 7 to 0 of the result only: 1 when they hold 0, 2, 4, 6 or 8 ones, 0 when they hold 1, 3, 5
or 7; and the examples of R25. -/
def Obligations.ParityOfTheLowByte : Prop :=
  (∀ (f : Flags) (v : Int) (c o : Bool),
    let n := (List.range 8).countP (fun i => (wrap16 v).getLsbD i)
    ((foldFlags f v c o).PF = true ↔ n = 0 ∨ n = 2 ∨ n = 4 ∨ n = 6 ∨ n = 8)
      ∧ ((foldFlags f v c o).PF = false ↔ n = 1 ∨ n = 3 ∨ n = 5 ∨ n = 7))
    ∧ (∀ (f : Flags) (v w : Int) (c o : Bool), v % 256 = w % 256 → (foldFlags f v c o).PF = (foldFlags f w c o).PF)
    ∧ ∀ (f : Flags) (c o : Bool), (foldFlags f 0 c o).PF = true ∧ (foldFlags f 1 c o).PF = false
        ∧ (foldFlags f 3 c o).PF = true ∧ (foldFlags f 0x100 c o).PF = true
        ∧ (foldFlags f 0xFF c o).PF = true ∧ (foldFlags f 0xFFFE c o).PF = false

/-- `readWord` is the low byte plus 256 times the high byte where both are in range, else it fails with
`AddressOutOfRange` (R42). -/
def Obligations.ReadWordIsTwoBytes : Prop :=
  ∀ (s : State) (a : Int),
    (0 ≤ a → a ≤ 0xFFFFE → ∃ (lo hi : Byte) (v : Word), readByte s a = .ok lo ∧ readByte s (a + 1) = .ok hi
        ∧ readWord s a = .ok v ∧ v.toNat = lo.toNat + 256 * hi.toNat)
      ∧ (¬ (0 ≤ a ∧ a ≤ 0xFFFFE) → readWord s a = .error .addressOutOfRange)

/-- The round-trip law of the Memory Unit, with the two overlapping words (R58). -/
def Obligations.WrittenWordReadsBack : Prop :=
  ∀ (s : State) (a v : Int), 0 ≤ a → a ≤ 0xFFFFE → ∃ t, writeWord s a v = .ok t
    ∧ readWord t a = .ok (wrap16 v)
    ∧ (a + 1 ≤ 0xFFFFE → ∃ (b : Byte) (w : Word), readByte s (a + 2) = .ok b ∧ readWord t (a + 1) = .ok w
        ∧ w.toNat = (wrap16 v).toNat / 256 + 256 * b.toNat)
    ∧ (0 ≤ a - 1 → ∃ (b : Byte) (w : Word), readByte s (a - 1) = .ok b ∧ readWord t (a - 1) = .ok w
        ∧ w.toNat = b.toNat + 256 * ((wrap16 v).toNat % 256))

/-- A word write stores the low byte at its address and the high byte above it, and changes no other byte, no
register and no flag; out of range it fails and there is no state in which a byte has moved (R43, R47;
the exact range is decision D5). That the model records one write for the host is log entry 6: R49 leaves
the number and the payload of the notifications open. -/
def Obligations.WordWriteTouchesTwoBytes : Prop :=
  ∀ (s : State) (a v : Int),
    (0 ≤ a → a ≤ 0xFFFFE → ∃ t, writeWord s a v = .ok t ∧ holdsWord a (wrap16 v) t
        ∧ changesOnlyRegsAndWord [] a s t)
      ∧ (¬ (0 ≤ a ∧ a ≤ 0xFFFFE) → writeWord s a v = .error .addressOutOfRange)

/-- `ALU_ADD` (R131). -/
def Obligations.AluAddition : Prop :=
  ∀ a b : Word,
    (aluAdd a b).raw = (a.toNat : Int) + b.toNat
      ∧ ((aluAdd a b).raw ≤ 65535 → ((aluAdd a b).r.toNat : Int) = (aluAdd a b).raw)
      ∧ (65535 < (aluAdd a b).raw → ((aluAdd a b).r.toNat : Int) = (aluAdd a b).raw - 65536)
      ∧ (aluAdd a b).carry = decide (0xFFFF < a.toNat + b.toNat)
      ∧ (aluAdd a b).overflow
          = decide (a.getLsbD 15 = b.getLsbD 15 ∧ (aluAdd a b).r.getLsbD 15 ≠ a.getLsbD 15)

/-- `ALU_SUB` (R132). -/
def Obligations.AluSubtraction : Prop :=
  ∀ a b : Word,
    (aluSub a b).raw = (a.toNat : Int) - b.toNat
      ∧ (0 ≤ (aluSub a b).raw → ((aluSub a b).r.toNat : Int) = (aluSub a b).raw)
      ∧ ((aluSub a b).raw < 0 → ((aluSub a b).r.toNat : Int) = (aluSub a b).raw + 65536)
      ∧ (aluSub a b).carry = decide (a.toNat < b.toNat)
      ∧ (aluSub a b).overflow
          = decide (a.getLsbD 15 ≠ b.getLsbD 15 ∧ (aluSub a b).r.getLsbD 15 = b.getLsbD 15)

/-- `ALU_MUL`: `p = a * b`, `r = wrap16(p)`, `big` (R133). -/
def Obligations.AluMultiplication : Prop :=
  ∀ a b : Word,
    (aluMul a b).p = a.toNat * b.toNat ∧ (aluMul a b).p ≤ 0xFFFE0001
      ∧ (aluMul a b).r.toNat = (aluMul a b).p % 65536 ∧ (aluMul a b).big = decide (0xFFFF < (aluMul a b).p)

/-- `ALU_DIV` for a divisor other than 0 (R134; for 0 it is not consulted, which `DivideByZeroFails` says). -/
def Obligations.AluDivision : Prop :=
  ∀ a b : Word, b ≠ 0 → (aluDiv a b).q = a.toNat / b.toNat ∧ (aluDiv a b).m = a.toNat % b.toNat
    ∧ a.toNat = b.toNat * (aluDiv a b).q + (aluDiv a b).m ∧ (aluDiv a b).q ≤ 65535 ∧ (aluDiv a b).m < b.toNat

/-- The overflow outputs report the signed outcome and the carry outputs the unsigned one, and the raw result
is the stored one exactly when there is no carry (R140, which the spec marks as derived). -/
def Obligations.OverflowIsTheSignedOutcome : Prop :=
  ∀ a b : Word,
    ((aluAdd a b).overflow = true ↔
        ¬ (-32768 ≤ signedReading a + signedReading b ∧ signedReading a + signedReading b ≤ 32767))
      ∧ ((aluAdd a b).carry = true ↔ 65536 ≤ a.toNat + b.toNat)
      ∧ ((aluAdd a b).raw = (aluAdd a b).r.toNat ↔ (aluAdd a b).carry = false)
      ∧ ((aluSub a b).overflow = true ↔
        ¬ (-32768 ≤ signedReading a - signedReading b ∧ signedReading a - signedReading b ≤ 32767))
      ∧ ((aluSub a b).carry = true ↔ a.toNat < b.toNat)
      ∧ ((aluSub a b).raw = (aluSub a b).r.toNat ↔ (aluSub a b).carry = false)

/-! ### The instructions -/

/-- `mov r, r` and `mov r, imm` complete in every state, for all nine registers (R111). -/
def Obligations.MovToRegisterCompletes : Prop :=
  ∀ (r q : Reg) (n : Word) (s : State),
    (∃ t, exec (.movRegReg r q) s = .next t ∧ getRegister t r = getRegister s q ∧ changesOnlyRegs [r] s t)
      ∧ ∃ t, exec (.movRegImm r n) s = .next t ∧ getRegister t r = n ∧ changesOnlyRegs [r] s t

/-- `mov r, [a]` completes for every address whose word lies in the array, odd ones too (R112; the exact range
is decision D5 and the absence of an alignment rule decision D22). -/
def Obligations.LoadCompletes : Prop :=
  ∀ (r : Reg) (a : Int) (s : State), 0 ≤ a → a ≤ 0xFFFFE →
    ∃ t, exec (.movRegMem r a) s = .next t ∧ holdsWord a (getRegister t r) s ∧ changesOnlyRegs [r] s t

/-- `mov [a], r` and `mov [a], imm` complete for every address whose word lies in the array (R113; D5, D22). That
one write is recorded for the host is log entry 6. -/
def Obligations.StoreCompletes : Prop :=
  ∀ (a : Int) (q : Reg) (n : Word) (s : State), 0 ≤ a → a ≤ 0xFFFFE →
    (∃ t, exec (.movMemReg a q) s = .next t ∧ holdsWord a (getRegister s q) t ∧ changesOnlyRegsAndWord [] a s t)
      ∧ ∃ t, exec (.movMemImm a n) s = .next t ∧ holdsWord a n t ∧ changesOnlyRegsAndWord [] a s t

/-- The memory forms of `mov` fail with `AddressOutOfRange` at every other address, negative ones too, and
write nothing (R112, R113, R179; the exact range is decision D5). -/
def Obligations.MovOutOfRangeFails : Prop :=
  ∀ (r : Reg) (n : Word) (a : Int) (s : State), ¬ (0 ≤ a ∧ a ≤ 0xFFFFE) →
    exec (.movRegMem r a) s = .next (raise .addressOutOfRange s)
      ∧ exec (.movMemReg a r) s = .next (raise .addressOutOfRange s)
      ∧ exec (.movMemImm a n) s = .next (raise .addressOutOfRange s)

/-- `push r` and `push imm` complete in every state: the operand as it was before the decrement, `push sp` too
(decision D8), is stored at the decremented `sp`, which wraps (R115, R116). That one write is recorded for
the host is log entry 6. The host may be shown the state between the two writes (R31). -/
def Obligations.PushCompletes : Prop :=
  ∀ (q : Reg) (n : Word) (s : State),
    (∃ t, exec (.pushReg q) s = .next t ∧ pushEffect (getRegister s q) s t)
      ∧ ∃ t, exec (.pushImm n) s = .next t ∧ pushEffect n s t

/-- `pop r` completes in every state: the word at `sp` goes to `r` and `sp` goes up by 2, wrapping; for
`pop sp` the increment is applied to the popped word (R117, R118); no byte of memory is written (R50). The host
may be shown the state between the two writes (R31). -/
def Obligations.PopCompletes : Prop :=
  ∀ (r : Reg) (s : State), ∃ t v, exec (.popReg r) s = .next t ∧ readWord s (intOf (popAddress s)) = .ok v
    ∧ (r ≠ .sp → getRegister t r = v ∧ (getRegister t .sp).toNat = ((getRegister s .sp).toNat + 2) % 65536)
    ∧ (r = .sp → (getRegister t .sp).toNat = (v.toNat + 2) % 65536)
    ∧ changesOnlyRegs [r, .sp] s t ∧ mayBeShown (setRegister s r (intOf v)) s t

/-- The stack law: a push followed at once by a pop moves the value, restores `sp`, and leaves the value in the
two bytes below it (R119 a, which the spec marks as derived). -/
def Obligations.PushThenPopMovesTheValue : Prop :=
  ∀ (q r : Reg) (s : State), q ≠ .sp → r ≠ .sp →
    ∃ t u, exec (.pushReg q) s = .next t ∧ exec (.popReg r) t = .next u
      ∧ getRegister u r = getRegister s q ∧ getRegister u .sp = getRegister s .sp
      ∧ keepsRegsExcept [r] s u ∧ u.flags = s.flags
      ∧ holdsWord (((getRegister s .sp).toNat + 65534) % 65536 : Nat) (getRegister s q) u

/-- `add r, r` and `add r, imm` complete in every state with the sum, all the flags and nothing else (R135). -/
def Obligations.AddCompletes : Prop :=
  ∀ (r q : Reg) (n : Word) (s : State),
    (∃ t, exec (.addRegReg r q) s = .next t ∧ addEffect r (getRegister s q) s t)
      ∧ ∃ t, exec (.addRegImm r n) s = .next t ∧ addEffect r n s t

/-- `sub r, r` and `sub r, imm` complete in every state with the difference, all the flags and nothing else
(R136). -/
def Obligations.SubCompletes : Prop :=
  ∀ (r q : Reg) (n : Word) (s : State),
    (∃ t, exec (.subRegReg r q) s = .next t ∧ subEffect r (getRegister s q) s t)
      ∧ ∃ t, exec (.subRegImm r n) s = .next t ∧ subEffect r n s t

/-- `mul r` and `mul imm` complete in every state: `ax`, CF and OF, not `dx` and no other flag (R137). -/
def Obligations.MulCompletes : Prop :=
  ∀ (q : Reg) (n : Word) (s : State),
    (∃ t, exec (.mulReg q) s = .next t ∧ mulEffect (getRegister s q) s t)
      ∧ ∃ t, exec (.mulImm n) s = .next t ∧ mulEffect n s t

/-- `div r` and `div imm` complete whenever the divisor is not 0; the dividend is `ax` alone (R138). That
`div ax` and `div dx` use the old values is decision D8 and that no flag is written is decision D7 (log entry 16).
The host may be shown the state between the two writes (R31). -/
def Obligations.DivCompletes : Prop :=
  ∀ (q : Reg) (n : Word) (s : State),
    (getRegister s q ≠ 0 → ∃ t, exec (.divReg q) s = .next t ∧ divEffect (getRegister s q) s t)
      ∧ (n ≠ 0 → ∃ t, exec (.divImm n) s = .next t ∧ divEffect n s t)

/-- `div` by 0 fails with `DivideByZero` and leaves `ax`, `dx` and everything else of the stores (R138, R176). -/
def Obligations.DivideByZeroFails : Prop :=
  ∀ (q : Reg) (s : State),
    (getRegister s q = 0 → exec (.divReg q) s = .next (raise .divideByZero s))
      ∧ exec (.divImm 0) s = .next (raise .divideByZero s) ∧ keepsStores s (raise .divideByZero s)

/-- `DivisionOverflow` is raised by no instruction in any state (R143, which the spec marks as derived). -/
def Obligations.DivisionOverflowIsUnreachable : Prop :=
  ∀ (i : Instr) (s : State), exec i s ≠ .next (raise .divisionOverflow s)

/-! ### All instructions -/

/-- Every instruction runs in every state: none faults, none is refused. That an instruction that fails answers a
next state too, and no fault, is read from R181 (log entry 8, DEDUCED). -/
def Obligations.EveryInstructionAnswersNext : Prop :=
  ∀ (i : Instr) (s : State), ∃ t, exec i s = .next t

/-- An instruction that ends a run in Halted-Error has failed with one of the two execution failures and has
done nothing else: failures are precise (R110, R182). -/
def Obligations.FailingInstructionChangesNothing : Prop :=
  ∀ (i : Instr) (s t : State), s.sched ≠ .haltedError → exec i s = .next t → t.sched = .haltedError →
    (t = raise .divideByZero s ∨ t = raise .addressOutOfRange s) ∧ keepsStores s t ∧ t.lc = s.lc

/-- No instruction writes a register outside its row of the table of R13; `ip` in particular changes only
when it is named (R15, R167). -/
def Obligations.RegisterWriteTable : Prop :=
  ∀ (i : Instr) (s t : State), exec i s = .next t →
    keepsRegsExcept i.writes s t ∧ (.ip ∉ i.writes → getRegister t .ip = getRegister s .ip)

/-- What an instruction writes to registers depends on memory and on the registers of its row of the table of
R13 alone: on no other register and on no flag (R13, R22). -/
def Obligations.RegisterReadTable : Prop :=
  ∀ (i : Instr) (s s' t t' : State), s.sched = .running → s'.sched = .running → s.mem = s'.mem →
    (∀ q ∈ i.reads, getRegister s q = getRegister s' q) → exec i s = .next t → exec i s' = .next t' →
    (t.sched = t'.sched) ∧ (t.sched = .running → ∀ q ∈ i.writes, getRegister t q = getRegister t' q)

/-- Each instruction writes at most the flags of its row of the table of R22; DF is written by none (R23); that
`div` has the empty row is decision D7. -/
def Obligations.FlagWriteTable : Prop :=
  ∀ (i : Instr) (s t : State), exec i s = .next t →
    t.flags.DF = s.flags.DF
      ∧ (i.flagRow = .none → t.flags = s.flags)
      ∧ (i.flagRow = .carryOverflow → { t.flags with CF := s.flags.CF, OF := s.flags.OF } = s.flags
          ∧ t.flags.CF = t.flags.OF)
      ∧ (i.flagRow = .all → t.flags.AF = false)

/-- Memory is written by `mov` to a memory form and by `push` only; `pop` writes none (R50, conflict C11). -/
def Obligations.MemoryWriteTable : Prop :=
  ∀ (i : Instr) (s t : State), exec i s = .next t → i.stores = false → t.mem = s.mem

/-- Nothing an instruction does, short of failing, changes which line is processed next or whether one is: not
a write to `ip`, not a flag (R14, R163, R164). -/
def Obligations.InstructionsDoNotSequence : Prop :=
  ∀ (i : Instr) (s t : State), exec i s = .next t → t.sched ≠ .haltedError → keepsSequencing s t

/-! ### The step -/

/-- When the line at the cursor decodes to an instruction and the scheduler is the one to move, the step is
that instruction, and after it, unless it failed, the snapshot and the move to the next line (R163, R191).
That no snapshot is published after a failing instruction is the model's choice, log entry 13: R191 says
"after each instruction". -/
def Obligations.StepRunsTheDecodedInstruction : Prop :=
  ∀ (s : State) (line : Text) (i : Instr), s.lineDue = true → hostQuiet s → fetchLine s = some line →
    decodeLine line = .instr i →
    (∀ t, exec i (takeMove s) = .next t → t.sched = .haltedError → step s = .next t)
      ∧ (∀ t, exec i (takeMove s) = .next t → t.sched ≠ .haltedError →
          step s = .next (advanceLine (publishSnapshot t)))
      ∧ (∀ f, exec i (takeMove s) = .fault f → step s = .fault f)
      ∧ ∀ r, exec i (takeMove s) = .refused r → step s = .refused r

/-- A line processed without a failure moves the cursor by one and, after the last line of a batch or of the
program, invokes the progress hook (R190); the run then ends in Halted-Ok if no line is left, yields if a batch
is done, and goes on otherwise (R163, R166, R185, R186, R189). At the yield a free value says whether the
boundary check precedes it, so that a pending stop cancels the run to Idle (decision D20), or is still to come
(N30, log entry 5). Here `p` is what the line's own effect leaves. That a stop pending at the last line ends in
Halted-Ok is the spec's derivation in R186 where that line ends no whole batch; where the number of lines is a
multiple of 100 it is the model's choice, log entry 14. -/
def Obligations.ProcessedLineMovesOn : Prop :=
  ∀ (s p : State) (line : Text), s.lineDue = true → hostQuiet s → fetchLine s = some line →
    ((decodeLine line = .noOp ∧ p = takeMove s)
      ∨ ∃ i t, decodeLine line = .instr i ∧ exec i (takeMove s) = .next t ∧ t.sched ≠ .haltedError
          ∧ p = publishSnapshot t) →
    ∃ u, step s = .next u ∧ keepsStores p u ∧ u.lc = s.lc + 1 ∧ u.hooks = p.hooks ++ progressDue s
      ∧ (s.program.length ≤ s.lc + 1 → u.sched = .haltedOk ∧ u.program = [])
      ∧ (s.lc + 1 < s.program.length → (s.lc + 1) % 100 = 0 → s.sched = .stopping →
          if Config.checkFollowsYield s.draws then
            u.sched = .stopping ∧ u.program = s.program ∧ u.checkPending = true
          else u.sched = .idle ∧ u.program = [])
      ∧ (s.lc + 1 < s.program.length → (s.lc + 1) % 100 = 0 → s.sched ≠ .stopping →
          u.sched = s.sched ∧ u.program = s.program ∧ u.checkPending = Config.checkFollowsYield s.draws)
      ∧ (s.lc + 1 < s.program.length → (s.lc + 1) % 100 ≠ 0 →
          u.sched = s.sched ∧ u.program = s.program ∧ u.checkPending = false)

/-- A blank or label line changes no register, flag or memory byte, cannot fail, and publishes no snapshot; it
counts for the cursor and for progress, which is published exactly where the line is the last of a batch of
100 or of the program (R160, R161, R189, R190). -/
def Obligations.NoOpLineOnlyMovesTheCursor : Prop :=
  ∀ (s : State) (line : Text), s.lineDue = true → hostQuiet s → fetchLine s = some line → decodeLine line = .noOp →
    ∃ u, step s = .next u ∧ keepsStores s u ∧ u.lc = s.lc + 1
      ∧ ((s.lc + 1) % 100 = 0 ∨ s.lc + 1 = s.program.length →
          u.hooks = s.hooks ++ [.progress (s.lc + 1) s.program.length])
      ∧ (¬ ((s.lc + 1) % 100 = 0 ∨ s.lc + 1 = s.program.length) → u.hooks = s.hooks)

/-- An illegal line halts the run: the step takes the decoder's failure (R89, R92, R163). -/
def Obligations.IllegalLineHalts : Prop :=
  ∀ (s : State) (line : Text) (e : ErrorKind), s.lineDue = true → hostQuiet s → fetchLine s = some line →
    decodeLine line = .failure e → step s = .next (raise e (takeMove s))

/-- Failing: Halted-Error, one error hook with the 1-based line number and the kind, the cursor where it was, no
register, flag or memory byte changed, the program discarded; and it is final until the host calls
(R181, R183, R192, R204). That the error is the only hook, no snapshot beside it, is the model's choice, log
entry 13. -/
def Obligations.FailureHaltsForGood : Prop :=
  ∀ (e : ErrorKind) (s : State),
    (raise e s).sched = .haltedError ∧ keepsStores s (raise e s) ∧ (raise e s).lc = s.lc
      ∧ (raise e s).hooks = s.hooks ++ [.error (s.lc + 1) e] ∧ (raise e s).program = []
      ∧ (s.host = [] → ∀ n, core.run n (raise e s) = .next (raise e s))

/-- `run` outside a run resets the three stores, whatever they held, and starts the program at line 0
(R186, R200 a, R204). The values of the registers but `sp` and of the flags but AF are decisions D1 and D2
(log entries 1 and 2); that the record of hook invocations begins anew, and that the reset itself invokes no hook,
are the model's choices (log entries 13 and 22). -/
def Obligations.RunStartsFromTheResetState : Prop :=
  ∀ (s : State) (text : Text) (rest : List HostMove), s.busy = false → s.host = .run text :: rest →
    ∃ t, step s = .next t ∧ keepsStores State.reset t ∧ t.sched = .running ∧ t.lc = 0 ∧ t.lineDue = true
      ∧ t.program = splitLines text ∧ t.labelMap = labelsFrom 0 (splitLines text) ∧ t.hooks = []
      ∧ t.host = rest

/-- `run` during a run is a no-op (R187). -/
def Obligations.RunWhileRunningIsRejected : Prop :=
  ∀ (s : State) (text : Text) (rest : List HostMove), s.busy = true → s.host = .run text :: rest →
    step s = .next { s with host := rest }

/-- `reset()` outside a run gives the reset state of the stores and an Idle scheduler (R200 b, R201, R186). The
values of the registers but `sp` and of the flags but AF are decisions D1 and D2 (log entries 1 and 2). -/
def Obligations.ResetCallRestoresTheStores : Prop :=
  ∀ (s : State) (rest : List HostMove), s.busy = false → s.host = .reset :: rest →
    ∃ t, step s = .next t ∧ keepsStores State.reset t ∧ t.sched = .idle ∧ t.program = [] ∧ t.host = rest

/-- `stop()`: nothing unless Running, else the request is recorded, Stopping, and nothing else changes, at a batch
boundary too (R185, R186). The run is then in progress still, so that `run` is rejected and `reset()` refused.
The next line is due unless the boundary check is still to come (U11, N30, log entry 5), and where it is, the
next step makes it and cancels the run: Idle, which is decision D20 (log entry 16), with no line processed, no
store changed and nothing reported. -/
def Obligations.StopCallRecordsTheRequest : Prop :=
  (∀ (s : State) (rest : List HostMove), s.host = .stop :: rest →
      (s.sched ≠ .running → step s = .next { s with host := rest })
        ∧ (s.sched = .running → ∃ t, step s = .next t ∧ t = { s with host := rest, sched := .stopping }
            ∧ t.busy = true ∧ t.lineDue = !s.checkPending))
    ∧ ∀ s : State, s.sched = .stopping → s.checkPending = true → hostQuiet s →
        ∃ t, step s = .next t ∧ keepsStores s t ∧ t.lc = s.lc ∧ t.hooks = s.hooks ∧ t.sched = .idle
          ∧ t.program = []

/-- Cancellation latency (R185, R207 a), for either free value. The step: while a stop request is pending before
the batch boundary `b` and the host makes no call, the next state either still stops before `b` or is over
with no line from `b` on processed. The run: after a request made when the cursor is `k`, with a host that
then only waits, in every state in which a line is due the cursor stands before the line
`100 * (k / 100 + 1)`, so that line and those after it are never processed, however many steps follow. -/
def Obligations.StopBoundsTheRun : Prop :=
  (∀ (s : State) (b : Nat), b % 100 = 0 → stopsBefore b s → hostQuiet s →
      ∃ t, step s = .next t ∧ (stopsBefore b t ∨ stoppedBy b t))
    ∧ ∀ (s t : State) (rest : List HostMove) (n : Nat), s.sched = .running → s.host = .stop :: rest →
        (∀ m ∈ rest, m = .wait) → core.run n s = .next t →
        t.lc ≤ 100 * (s.lc / 100 + 1) ∧ (t.lineDue = true → t.lc < 100 * (s.lc / 100 + 1))

/-- Every run left to itself ends within as many steps as there are lines left (R163, R166, R208). The step: while
the host makes no call, a step of a run in progress ends it or moves the cursor by one inside the program. -/
def Obligations.EveryRunTerminates : Prop :=
  (∀ s : State, s.busy = true → hostQuiet s →
      ∃ t, step s = .next t
        ∧ (t.busy = false ∨ (t.lc = s.lc + 1 ∧ t.lc < t.program.length ∧ t.program = s.program)))
    ∧ ∀ s : State, s.Inv → s.busy = true → s.host = [] →
        ∃ n t, n ≤ s.program.length - s.lc ∧ core.run n s = .next t ∧ t.busy = false

/-- A run's program and Label Map stay what they were for as long as it lasts: no store, no instruction and no
host call changes what will be fetched (R29, R56, R187). -/
def Obligations.ProgramIsFixedDuringARun : Prop :=
  ∀ s t : State, s.busy = true → step s = .next t → t.busy = true →
    t.program = s.program ∧ t.labelMap = s.labelMap

/-- A call of `reset()` during a run is refused (R202, D21), and no other step is: every step answers a next
state except this one. -/
def Obligations.StepRefusesOnlyResetDuringARun : Prop :=
  (∀ (s : State) (rest : List HostMove), s.busy = true → s.host = .reset :: rest →
      step s = .refused .resetDuringRun)
    ∧ ∀ s : State, ¬ (s.busy = true ∧ ∃ rest, s.host = .reset :: rest) → ∃ t, step s = .next t

/-- The invariant holds after reset. That DF is 0 then is decision D2 (log entry 2), a choice of the spec; the clause
on the boundary check is of the model's own field (log entry 5). -/
def Obligations.ResetStateHasTheInvariant : Prop := State.reset.Inv

/-- Every step keeps the invariant, from every state that has it (R22, R23, R28, R30, R163, R192, R204). That a
`run` or a `reset()` leaves DF 0 is decision D2 (log entry 2), and that the record of hook invocations, in which
the error hook is counted, begins anew there is the model's choice (log entry 13). That the check at a batch
boundary comes before or after the yield is open, and the clause on it is of the model's own field (log entry 5). -/
def Obligations.StepKeepsTheInvariant : Prop :=
  ∀ s t : State, s.Inv → step s = .next t → t.Inv

/-- What reset leaves: `sp` is 0xFFF0, AF is 0 and every byte of memory is 0 by the source (R33); the other
registers and flags are 0 by the spec's decisions D1 and D2 (log entries 1 and 2). -/
def Obligations.ResetValues : Prop :=
  (getRegister State.reset .sp).toNat = 0xFFF0
    ∧ (∀ a : Int, 0 ≤ a → a ≤ 0xFFFFF → readByte State.reset a = .ok 0)
    ∧ State.reset.flags.AF = false
    ∧ (∀ q, q ≠ .sp → getRegister State.reset q = 0)
    ∧ State.reset.flags.ZF = false ∧ State.reset.flags.SF = false ∧ State.reset.flags.CF = false
    ∧ State.reset.flags.OF = false ∧ State.reset.flags.PF = false ∧ State.reset.flags.DF = false
    ∧ State.reset.sched = .idle

/-- A legal DIW placed where the step fetches is the instruction the step runs (log entry 11). -/
def Obligations.PlacedWordIsTheNextInstruction : Prop :=
  ∀ (s : State) (w : BitVec 64) (i : Instr), decode w = some i →
    step (s.withFetchWord 64 w.toNat) = runInstruction i (s.withFetchWord 64 w.toNat)
end

