-- ==== Sys2Proof/Laws/Bits.lean ====
section
/-! SUPPORT. The laws of the number primitives: `wrap16` on the values the units hand it, and the two bytes of a
word. -/

namespace Sys2Proof

theorem intOf_nonneg (v : Word) : 0 ≤ intOf v := Int.natCast_nonneg _

theorem intOf_lt (v : Word) : intOf v < 65536 := by
  have := v.isLt
  simp only [intOf]
  omega

/-- `wrap16` as a remainder (R7). -/
theorem intOf_wrap16 (v : Int) : intOf (wrap16 v) = v % 65536 := by
  simp only [intOf, wrap16, BitVec.toNat_ofInt]
  omega

/-- Two words are equal when they stand for the same integer. -/
theorem word_ext {a b : Word} (h : intOf a = intOf b) : a = b := by
  apply BitVec.eq_of_toNat_eq
  simp only [intOf] at h
  omega

/-- A word wraps to itself. -/
@[simp] theorem wrap16_intOf (v : Word) : wrap16 (intOf v) = v := by
  apply word_ext
  rw [intOf_wrap16]
  have := intOf_nonneg v
  have := intOf_lt v
  omega

/-- An integer that fits wraps to itself. -/
theorem intOf_wrap16_of_fits {v : Int} (h0 : 0 ≤ v) (h1 : v < 65536) : intOf (wrap16 v) = v := by
  rw [intOf_wrap16]
  omega

/-- `wrap16` ignores multiples of 65536. -/
theorem wrap16_congr {a b : Int} (h : a % 65536 = b % 65536) : wrap16 a = wrap16 b := by
  apply word_ext
  rw [intOf_wrap16, intOf_wrap16, h]

/-- A word put together from its bytes is the word (R42, R43). -/
@[simp] theorem wordOfBytes_bytes (v : Word) : wordOfBytes (lowByte v) (highByte v) = v := by
  apply BitVec.eq_of_getLsbD_eq
  intro i hi
  simp only [wordOfBytes, lowByte, highByte, BitVec.getLsbD_append, BitVec.getLsbD_extractLsb']
  by_cases h : i < 8
  · simp [h]
  · simp only [h]
    have h8 : i - 8 < 8 := by omega
    have e : 8 + (i - 8) = i := by omega
    simp [h8, e]

/-- The value of a word from its bytes (R42). -/
theorem wordOfBytes_toNat (lo hi : Byte) : (wordOfBytes lo hi).toNat = lo.toNat + 256 * hi.toNat := by
  have := lo.isLt
  have := hi.isLt
  simp only [wordOfBytes, BitVec.toNat_append]
  rw [← Nat.shiftLeft_add_eq_or_of_lt (by omega), Nat.shiftLeft_eq]
  omega

/-- The low byte as a remainder. -/
theorem lowByte_toNat (v : Word) : (lowByte v).toNat = v.toNat % 256 := by
  simp [lowByte, BitVec.extractLsb'_toNat]

/-- The high byte as a quotient. -/
theorem highByte_toNat (v : Word) : (highByte v).toNat = v.toNat / 256 := by
  have := v.isLt
  simp only [highByte, BitVec.extractLsb'_toNat, Nat.shiftRight_eq_div_pow]
  omega

/-- `sign` of a word as a comparison. -/
theorem signBit_eq (v : Word) : signBit v = decide (32768 ≤ v.toNat) := by
  have hv := v.isLt
  simp only [signBit, BitVec.getLsbD, Nat.testBit_eq_decide_div_mod_eq]
  congr 1
  apply propext
  constructor <;> intro h <;> omega

end Sys2Proof
end

