-- ==== Sys2Proof/Laws/Decode.lean ====
section
/-! SUPPORT. The laws of the decoders' parts: the fields of a decoded-instruction word, register numbers and names. -/

namespace Sys2Proof

/-- Packing keeps every field (R95). -/
theorem unpackDiw_packDiw (f : DiwFields) : unpackDiw (packDiw f) = f := by
  obtain ⟨op, dk, sk, dr, sr, zh, ao, ad, im, zl⟩ := f
  simp only [unpackDiw, packDiw, DiwFields.mk.injEq]
  refine ⟨?_, ?_, ?_, ?_, ?_, ?_, ?_, ?_, ?_, ?_⟩ <;>
  · apply BitVec.eq_of_getLsbD_eq
    intro i hi
    simp only [BitVec.getLsbD_extractLsb', BitVec.getLsbD_append, hi, decide_true, Bool.true_and]
    repeat (first | rw [if_pos (by omega)] | rw [if_neg (by omega)])
    try (congr 1; omega)

theorem bit_in_field (w : BitVec 64) {i j k n : Nat} (hk : k < n) (hj : j = i) :
    (decide (k < n) && w.getLsbD j) = w.getLsbD i := by
  simp [hk, hj]

/-- A word is what its fields pack to (R95). -/
theorem packDiw_unpackDiw (w : BitVec 64) : packDiw (unpackDiw w) = w := by
  apply BitVec.eq_of_getLsbD_eq
  intro i hi
  simp only [unpackDiw, packDiw, BitVec.getLsbD_extractLsb', BitVec.getLsbD_append]
  repeat' split
  all_goals exact bit_in_field w (by omega) (by omega)

/-! ### Register numbers and names (R96, R81) -/

@[simp] theorem regOfNum_num (r : Reg) : regOfNum r.num = some r := by cases r <;> rfl

theorem num_of_regOfNum {n : BitVec 4} {r : Reg} (h : regOfNum n = some r) : r.num = n := by
  simpa using List.find?_some h

@[simp] theorem parseReg_name (r : Reg) : parseReg r.name = some r := by cases r <;> rfl

@[simp] theorem parseOp_name (o : Op) : parseOp o.name = some o := by cases o <;> rfl

theorem parseOp_eq_none {w : Text} : parseOp w = none ↔ ∀ o : Op, o.name ≠ lower w := by
  rw [parseOp, List.find?_eq_none]
  constructor
  · intro h o
    have := h o (by cases o <;> decide)
    simpa using this
  · intro h o _
    simpa using h o

/-! ### The address fields (R98) -/

theorem memSize_cast : (Config.memSize : Int) = 0x100000 := by norm_num [Config.memSize]

theorem addrInArray_iff (a : Int) : addrInArray a = true ↔ 0 ≤ a ∧ a < 0x100000 := by
  unfold addrInArray
  rw [Bool.and_eq_true, decide_eq_true_eq, decide_eq_true_eq, memSize_cast]

theorem putAddr_address (f : DiwFields) {a : Int} (h : addrExact a = true) : (f.putAddr a).address = a := by
  unfold DiwFields.putAddr DiwFields.address
  split
  · next hin =>
    rw [addrInArray_iff] at hin
    have hlt : a.toNat < 2 ^ 20 := by omega
    simp only [if_true, BitVec.toNat_ofNat, Nat.mod_eq_of_lt hlt]
    omega
  · next hin =>
    simp only [addrExact, hin, Bool.or_eq_true, decide_eq_true_eq, false_or, Bool.false_eq_true] at h
    simp [h]

theorem address_exact (f : DiwFields) : addrExact f.address = true := by
  unfold DiwFields.address
  split
  · have h := f.addr.isLt
    have hin : addrInArray (f.addr.toNat : Int) = true := by
      rw [addrInArray_iff]
      omega
    simp [addrExact, hin]
  · simp [addrExact]

theorem address_outside (f : DiwFields) (a : Int) (h : addrInArray a = false) : (f.putAddr a).address = outsideAddr := by
  simp [DiwFields.putAddr, DiwFields.address, h]

/-! ### Lines (R70, R76) -/

@[simp] theorem cutAt_ne_nil (sep : Char) (t : Text) : cutAt sep t ≠ [] := by
  induction t with
  | nil => simp [cutAt]
  | cons c cs ih =>
    unfold cutAt
    split
    · simp
    · split <;> simp

/-- A program text has at least one line (R70). -/
theorem splitLines_ne_nil (t : Text) : splitLines t ≠ [] := cutAt_ne_nil _ t

/-- A text without the separator is one piece. -/
theorem cutAt_no_sep {sep : Char} {t : Text} (h : sep ∉ t) : cutAt sep t = [t] := by
  induction t with
  | nil => rfl
  | cons c cs ih =>
    simp only [List.mem_cons, not_or] at h
    simp [cutAt, Ne.symm h.1, ih h.2]

/-- Two pieces around one separator. -/
theorem cutAt_one_sep {sep : Char} {t u : Text} (h : sep ∉ t) (hu : sep ∉ u) :
    cutAt sep (t ++ sep :: u) = [t, u] := by
  induction t with
  | nil => simp [cutAt, cutAt_no_sep hu]
  | cons c cs ih =>
    simp only [List.mem_cons, not_or] at h
    simp [cutAt, Ne.symm h.1, ih h.2]

end Sys2Proof
end

