-- ==== Sys2Proof/Laws/Memory.lean ====
section
/-! SUPPORT. The laws of the memory array: a byte written is the byte read, every other byte is as before, and every
operation keeps the canonical form. -/

namespace Sys2Proof.Machine

/-! ### Read after write -/

theorem Memory.byteAt_remove_same (m : Memory) (a : Nat) : Memory.byteAt (Memory.remove m a) a = 0 := by
  induction m with
  | nil => rfl
  | cons c m ih =>
    obtain ⟨a', b'⟩ := c
    by_cases h : a = a' <;> simp [Memory.remove, Memory.byteAt, h]
    · simpa [h] using ih
    · simpa [h] using ih

theorem Memory.byteAt_remove_other (m : Memory) {a c : Nat} (h : c ≠ a) : Memory.byteAt (Memory.remove m a) c = Memory.byteAt m c := by
  induction m with
  | nil => rfl
  | cons e m ih =>
    obtain ⟨a', b'⟩ := e
    by_cases h1 : a = a'
    · subst h1
      simp [Memory.remove, Memory.byteAt, h, ih]
    · simp [Memory.remove, Memory.byteAt, h1, ih]

theorem Memory.byteAt_insertCell_same (m : Memory) (a : Nat) (b : Byte) (h : Memory.remove m a = m) :
    Memory.byteAt (Memory.insertCell a b m) a = b := by
  induction m with
  | nil => simp [Memory.insertCell, Memory.byteAt]
  | cons e m ih =>
    obtain ⟨a', b'⟩ := e
    by_cases h1 : a = a'
    · subst h1
      have hlen : ∀ l : Memory, (Memory.remove l a).length ≤ l.length := by
        intro l
        induction l with
        | nil => simp [Memory.remove]
        | cons x l ihl =>
          obtain ⟨p, q⟩ := x
          by_cases hp : a = p <;> simp [Memory.remove, hp] <;> (try subst hp) <;> omega
      have hl := hlen m
      have := congrArg List.length h
      simp [Memory.remove] at this
      omega
    · have hm : Memory.remove m a = m := by simpa [Memory.remove, h1] using h
      by_cases h2 : a < a'
      · simp [Memory.insertCell, h2, Memory.byteAt]
      · simp [Memory.insertCell, h2, Memory.byteAt, h1, ih hm]

theorem Memory.byteAt_insertCell_other (m : Memory) {a c : Nat} (b : Byte) (h : c ≠ a) :
    Memory.byteAt (Memory.insertCell a b m) c = Memory.byteAt m c := by
  induction m with
  | nil => simp [Memory.insertCell, Memory.byteAt, h]
  | cons e m ih =>
    obtain ⟨a', b'⟩ := e
    by_cases h2 : a < a'
    · simp [Memory.insertCell, h2, Memory.byteAt, h]
    · simp [Memory.insertCell, h2, Memory.byteAt, ih]

theorem Memory.remove_remove (m : Memory) (a : Nat) : Memory.remove (Memory.remove m a) a = Memory.remove m a := by
  induction m with
  | nil => rfl
  | cons e m ih =>
    obtain ⟨a', b'⟩ := e
    by_cases h : a = a'
    · simp [Memory.remove, h]
      simpa [h] using ih
    · simp [Memory.remove, h, ih]

/-- A byte written is the byte read. -/
@[simp] theorem Memory.byteAt_setByte_same (m : Memory) (a : Nat) (b : Byte) : Memory.byteAt (Memory.setByte m a b) a = b := by
  unfold Memory.setByte
  split
  · next h => rw [Memory.byteAt_remove_same, h]
  · exact Memory.byteAt_insertCell_same _ _ _ (Memory.remove_remove m a)

/-- Every other byte is as before. -/
theorem Memory.byteAt_setByte_other (m : Memory) {a c : Nat} (b : Byte) (h : c ≠ a) : Memory.byteAt (Memory.setByte m a b) c = Memory.byteAt m c := by
  unfold Memory.setByte
  split
  · exact Memory.byteAt_remove_other m h
  · rw [Memory.byteAt_insertCell_other _ _ h, Memory.byteAt_remove_other m h]

/-- One read law for both cases. -/
theorem Memory.byteAt_setByte (m : Memory) (a c : Nat) (b : Byte) :
    Memory.byteAt (Memory.setByte m a b) c = if c = a then b else Memory.byteAt m c := by
  split
  · next h => rw [h, Memory.byteAt_setByte_same]
  · next h => exact Memory.byteAt_setByte_other m b h

/-- What a word write leaves at every address (R43, R44). -/
theorem Memory.byteAt_setWord (m : Memory) (a c : Nat) (v : Word) :
    Memory.byteAt (Memory.setWord m a v) c = if c = a + 1 then highByte v else if c = a then lowByte v else Memory.byteAt m c := by
  simp only [Memory.setWord, Memory.byteAt_setByte]

/-! ### The canonical form -/

theorem Memory.wfFrom_mono {lo lo' : Nat} {m : Memory} (h : lo' ≤ lo) (hw : Memory.wfFrom lo m = true) :
    Memory.wfFrom lo' m = true := by
  cases m with
  | nil => rfl
  | cons e m =>
    obtain ⟨a, b⟩ := e
    simp only [Memory.wfFrom, Bool.and_eq_true, decide_eq_true_eq] at hw ⊢
    exact ⟨⟨⟨by omega, hw.1.1.2⟩, hw.1.2⟩, hw.2⟩

theorem Memory.wfFrom_remove (m : Memory) (a lo : Nat) (hw : Memory.wfFrom lo m = true) :
    Memory.wfFrom lo (Memory.remove m a) = true := by
  induction m generalizing lo with
  | nil => rfl
  | cons e m ih =>
    obtain ⟨a', b'⟩ := e
    simp only [Memory.wfFrom, Bool.and_eq_true, decide_eq_true_eq] at hw
    by_cases h : a = a'
    · simp only [Memory.remove, h, if_true]
      exact Memory.wfFrom_mono (lo := a' + 1) (by omega) (by simpa [h] using ih _ hw.2)
    · simp only [Memory.remove, h, if_false, Memory.wfFrom, Bool.and_eq_true, decide_eq_true_eq]
      exact ⟨hw.1, ih _ hw.2⟩

theorem Memory.wfFrom_insertCell (m : Memory) (a lo : Nat) (b : Byte) (hlo : lo ≤ a) (ha : a < Config.memSize)
    (hb : b ≠ 0) (hw : Memory.wfFrom lo m = true) (he : Memory.remove m a = m) :
    Memory.wfFrom lo (Memory.insertCell a b m) = true := by
  induction m generalizing lo with
  | nil => simpa [Memory.insertCell, Memory.wfFrom, hlo, ha] using hb
  | cons e m ih =>
    obtain ⟨a', b'⟩ := e
    simp only [Memory.wfFrom, Bool.and_eq_true, decide_eq_true_eq] at hw
    have hne : a ≠ a' := by
      intro h
      have h1 := Memory.byteAt_remove_same ((a', b') :: m) a
      rw [he] at h1
      simp [Memory.byteAt, h] at h1
      exact hw.1.2 h1
    have hm : Memory.remove m a = m := by simpa [Memory.remove, hne] using he
    by_cases h2 : a < a'
    · simp only [Memory.insertCell, h2, if_true, Memory.wfFrom, Bool.and_eq_true, decide_eq_true_eq]
      exact ⟨⟨⟨hlo, ha⟩, hb⟩, ⟨⟨by omega, hw.1.1.2⟩, hw.1.2⟩, hw.2⟩
    · simp only [Memory.insertCell, h2, if_false, Memory.wfFrom, Bool.and_eq_true, decide_eq_true_eq]
      exact ⟨hw.1, ih _ (by omega) hw.2 hm⟩

theorem Memory.wf_remove {m : Memory} (a : Nat) (hw : Memory.wf m = true) : Memory.wf (Memory.remove m a) = true :=
  Memory.wfFrom_remove m a 0 hw

/-- A byte write inside the array keeps the canonical form. -/
theorem Memory.wf_setByte {m : Memory} {a : Nat} (b : Byte) (ha : a < Config.memSize) (hw : Memory.wf m = true) :
    Memory.wf (Memory.setByte m a b) = true := by
  unfold Memory.setByte
  split
  · exact Memory.wf_remove a hw
  · next hb =>
    exact Memory.wfFrom_insertCell _ a 0 b (Nat.zero_le _) ha hb (Memory.wf_remove a hw) (Memory.remove_remove m a)

/-- A word write inside the array keeps the canonical form. -/
theorem Memory.wf_setWord {m : Memory} {a : Nat} (v : Word) (ha : a + 1 < Config.memSize) (hw : Memory.wf m = true) :
    Memory.wf (Memory.setWord m a v) = true :=
  Memory.wf_setByte _ ha (Memory.wf_setByte _ (by omega) hw)

/-- The memory after reset is in canonical form. -/
theorem Memory.wf_reset : Memory.wf State.reset.mem = true := rfl

end Sys2Proof.Machine
end

