-- ==== Sys2Proof/Laws/State.lean ====
section
/-! SUPPORT. For each named update of the state, what it does to each field: true by rfl, so that no later proof
unfolds a record update. -/

namespace Sys2Proof.Machine

/-! ### `setRegister` -/

@[simp] theorem setRegister_regs (s : State) (r : Reg) (v : Int) : (setRegister s r v).regs = s.regs.set r (wrap16 v) := rfl
@[simp] theorem setRegister_flags (s : State) (r : Reg) (v : Int) : (setRegister s r v).flags = s.flags := rfl
@[simp] theorem setRegister_mem (s : State) (r : Reg) (v : Int) : (setRegister s r v).mem = s.mem := rfl
@[simp] theorem setRegister_sched (s : State) (r : Reg) (v : Int) : (setRegister s r v).sched = s.sched := rfl
@[simp] theorem setRegister_lc (s : State) (r : Reg) (v : Int) : (setRegister s r v).lc = s.lc := rfl
@[simp] theorem setRegister_program (s : State) (r : Reg) (v : Int) : (setRegister s r v).program = s.program := rfl
@[simp] theorem setRegister_labelMap (s : State) (r : Reg) (v : Int) : (setRegister s r v).labelMap = s.labelMap := rfl
@[simp] theorem setRegister_host (s : State) (r : Reg) (v : Int) : (setRegister s r v).host = s.host := rfl
@[simp] theorem setRegister_hooks (s : State) (r : Reg) (v : Int) : (setRegister s r v).hooks = s.hooks := rfl
@[simp] theorem setRegister_draws (s : State) (r : Reg) (v : Int) : (setRegister s r v).draws = s.draws := rfl
@[simp] theorem setRegister_checkPending (s : State) (r : Reg) (v : Int) : (setRegister s r v).checkPending = s.checkPending := rfl
@[simp] theorem setRegister_moments (s : State) (r : Reg) (v : Int) : (setRegister s r v).moments = s.moments := rfl

/-! ### `setFlags` -/

@[simp] theorem setFlags_regs (s : State) (f : Flags) : (setFlags s f).regs = s.regs := rfl
@[simp] theorem setFlags_flags (s : State) (f : Flags) : (setFlags s f).flags = f := rfl
@[simp] theorem setFlags_mem (s : State) (f : Flags) : (setFlags s f).mem = s.mem := rfl
@[simp] theorem setFlags_sched (s : State) (f : Flags) : (setFlags s f).sched = s.sched := rfl
@[simp] theorem setFlags_lc (s : State) (f : Flags) : (setFlags s f).lc = s.lc := rfl
@[simp] theorem setFlags_program (s : State) (f : Flags) : (setFlags s f).program = s.program := rfl
@[simp] theorem setFlags_labelMap (s : State) (f : Flags) : (setFlags s f).labelMap = s.labelMap := rfl
@[simp] theorem setFlags_host (s : State) (f : Flags) : (setFlags s f).host = s.host := rfl
@[simp] theorem setFlags_hooks (s : State) (f : Flags) : (setFlags s f).hooks = s.hooks := rfl
@[simp] theorem setFlags_draws (s : State) (f : Flags) : (setFlags s f).draws = s.draws := rfl
@[simp] theorem setFlags_checkPending (s : State) (f : Flags) : (setFlags s f).checkPending = s.checkPending := rfl
@[simp] theorem setFlags_moments (s : State) (f : Flags) : (setFlags s f).moments = s.moments := rfl

/-! ### `updateFlags` -/

@[simp] theorem updateFlags_regs (s : State) (v : Int) (c o : Bool) : (updateFlags s v c o).regs = s.regs := rfl
@[simp] theorem updateFlags_flags (s : State) (v : Int) (c o : Bool) : (updateFlags s v c o).flags = foldFlags s.flags v c o := rfl
@[simp] theorem updateFlags_mem (s : State) (v : Int) (c o : Bool) : (updateFlags s v c o).mem = s.mem := rfl
@[simp] theorem updateFlags_sched (s : State) (v : Int) (c o : Bool) : (updateFlags s v c o).sched = s.sched := rfl
@[simp] theorem updateFlags_lc (s : State) (v : Int) (c o : Bool) : (updateFlags s v c o).lc = s.lc := rfl
@[simp] theorem updateFlags_program (s : State) (v : Int) (c o : Bool) : (updateFlags s v c o).program = s.program := rfl
@[simp] theorem updateFlags_labelMap (s : State) (v : Int) (c o : Bool) : (updateFlags s v c o).labelMap = s.labelMap := rfl
@[simp] theorem updateFlags_host (s : State) (v : Int) (c o : Bool) : (updateFlags s v c o).host = s.host := rfl
@[simp] theorem updateFlags_hooks (s : State) (v : Int) (c o : Bool) : (updateFlags s v c o).hooks = s.hooks := rfl
@[simp] theorem updateFlags_draws (s : State) (v : Int) (c o : Bool) : (updateFlags s v c o).draws = s.draws := rfl
@[simp] theorem updateFlags_checkPending (s : State) (v : Int) (c o : Bool) : (updateFlags s v c o).checkPending = s.checkPending := rfl
@[simp] theorem updateFlags_moments (s : State) (v : Int) (c o : Bool) : (updateFlags s v c o).moments = s.moments := rfl

/-! ### `setCarry` -/

@[simp] theorem setCarry_regs (s : State) (b : Bool) : (setCarry s b).regs = s.regs := rfl
@[simp] theorem setCarry_flags (s : State) (b : Bool) : (setCarry s b).flags = { s.flags with CF := b } := rfl
@[simp] theorem setCarry_mem (s : State) (b : Bool) : (setCarry s b).mem = s.mem := rfl
@[simp] theorem setCarry_sched (s : State) (b : Bool) : (setCarry s b).sched = s.sched := rfl
@[simp] theorem setCarry_lc (s : State) (b : Bool) : (setCarry s b).lc = s.lc := rfl
@[simp] theorem setCarry_program (s : State) (b : Bool) : (setCarry s b).program = s.program := rfl
@[simp] theorem setCarry_labelMap (s : State) (b : Bool) : (setCarry s b).labelMap = s.labelMap := rfl
@[simp] theorem setCarry_host (s : State) (b : Bool) : (setCarry s b).host = s.host := rfl
@[simp] theorem setCarry_hooks (s : State) (b : Bool) : (setCarry s b).hooks = s.hooks := rfl
@[simp] theorem setCarry_draws (s : State) (b : Bool) : (setCarry s b).draws = s.draws := rfl
@[simp] theorem setCarry_checkPending (s : State) (b : Bool) : (setCarry s b).checkPending = s.checkPending := rfl
@[simp] theorem setCarry_moments (s : State) (b : Bool) : (setCarry s b).moments = s.moments := rfl

/-! ### `setOverflow` -/

@[simp] theorem setOverflow_regs (s : State) (b : Bool) : (setOverflow s b).regs = s.regs := rfl
@[simp] theorem setOverflow_flags (s : State) (b : Bool) : (setOverflow s b).flags = { s.flags with OF := b } := rfl
@[simp] theorem setOverflow_mem (s : State) (b : Bool) : (setOverflow s b).mem = s.mem := rfl
@[simp] theorem setOverflow_sched (s : State) (b : Bool) : (setOverflow s b).sched = s.sched := rfl
@[simp] theorem setOverflow_lc (s : State) (b : Bool) : (setOverflow s b).lc = s.lc := rfl
@[simp] theorem setOverflow_program (s : State) (b : Bool) : (setOverflow s b).program = s.program := rfl
@[simp] theorem setOverflow_labelMap (s : State) (b : Bool) : (setOverflow s b).labelMap = s.labelMap := rfl
@[simp] theorem setOverflow_host (s : State) (b : Bool) : (setOverflow s b).host = s.host := rfl
@[simp] theorem setOverflow_hooks (s : State) (b : Bool) : (setOverflow s b).hooks = s.hooks := rfl
@[simp] theorem setOverflow_draws (s : State) (b : Bool) : (setOverflow s b).draws = s.draws := rfl
@[simp] theorem setOverflow_checkPending (s : State) (b : Bool) : (setOverflow s b).checkPending = s.checkPending := rfl
@[simp] theorem setOverflow_moments (s : State) (b : Bool) : (setOverflow s b).moments = s.moments := rfl

/-! ### `invokeHook` -/

@[simp] theorem invokeHook_regs (s : State) (h : HookCall) : (invokeHook s h).regs = s.regs := rfl
@[simp] theorem invokeHook_flags (s : State) (h : HookCall) : (invokeHook s h).flags = s.flags := rfl
@[simp] theorem invokeHook_mem (s : State) (h : HookCall) : (invokeHook s h).mem = s.mem := rfl
@[simp] theorem invokeHook_sched (s : State) (h : HookCall) : (invokeHook s h).sched = s.sched := rfl
@[simp] theorem invokeHook_lc (s : State) (h : HookCall) : (invokeHook s h).lc = s.lc := rfl
@[simp] theorem invokeHook_program (s : State) (h : HookCall) : (invokeHook s h).program = s.program := rfl
@[simp] theorem invokeHook_labelMap (s : State) (h : HookCall) : (invokeHook s h).labelMap = s.labelMap := rfl
@[simp] theorem invokeHook_host (s : State) (h : HookCall) : (invokeHook s h).host = s.host := rfl
@[simp] theorem invokeHook_hooks (s : State) (h : HookCall) : (invokeHook s h).hooks = s.hooks ++ [h] := rfl
@[simp] theorem invokeHook_draws (s : State) (h : HookCall) : (invokeHook s h).draws = s.draws := rfl
@[simp] theorem invokeHook_checkPending (s : State) (h : HookCall) : (invokeHook s h).checkPending = s.checkPending := rfl
@[simp] theorem invokeHook_moments (s : State) (h : HookCall) : (invokeHook s h).moments = s.moments := rfl

/-! ### `publishSnapshot` -/

@[simp] theorem publishSnapshot_regs (s : State) : (publishSnapshot s).regs = s.regs := rfl
@[simp] theorem publishSnapshot_flags (s : State) : (publishSnapshot s).flags = s.flags := rfl
@[simp] theorem publishSnapshot_mem (s : State) : (publishSnapshot s).mem = s.mem := rfl
@[simp] theorem publishSnapshot_sched (s : State) : (publishSnapshot s).sched = s.sched := rfl
@[simp] theorem publishSnapshot_lc (s : State) : (publishSnapshot s).lc = s.lc := rfl
@[simp] theorem publishSnapshot_program (s : State) : (publishSnapshot s).program = s.program := rfl
@[simp] theorem publishSnapshot_labelMap (s : State) : (publishSnapshot s).labelMap = s.labelMap := rfl
@[simp] theorem publishSnapshot_host (s : State) : (publishSnapshot s).host = s.host := rfl
@[simp] theorem publishSnapshot_hooks (s : State) : (publishSnapshot s).hooks = s.hooks ++ [.observed (snapshot s)] := rfl
@[simp] theorem publishSnapshot_draws (s : State) : (publishSnapshot s).draws = s.draws := rfl
@[simp] theorem publishSnapshot_checkPending (s : State) : (publishSnapshot s).checkPending = s.checkPending := rfl
@[simp] theorem publishSnapshot_moments (s : State) : (publishSnapshot s).moments = s.moments := rfl

/-! ### `moment` -/

@[simp] theorem moment_regs (s : State) : (moment s).regs = s.regs := rfl
@[simp] theorem moment_flags (s : State) : (moment s).flags = s.flags := rfl
@[simp] theorem moment_mem (s : State) : (moment s).mem = s.mem := rfl
@[simp] theorem moment_sched (s : State) : (moment s).sched = s.sched := rfl
@[simp] theorem moment_lc (s : State) : (moment s).lc = s.lc := rfl
@[simp] theorem moment_program (s : State) : (moment s).program = s.program := rfl
@[simp] theorem moment_labelMap (s : State) : (moment s).labelMap = s.labelMap := rfl
@[simp] theorem moment_host (s : State) : (moment s).host = s.host := rfl
@[simp] theorem moment_hooks (s : State) : (moment s).hooks = s.hooks ++ [.moment s.moments (snapshot s)] := rfl
@[simp] theorem moment_draws (s : State) : (moment s).draws = s.draws := rfl
@[simp] theorem moment_checkPending (s : State) : (moment s).checkPending = s.checkPending := rfl
@[simp] theorem moment_moments (s : State) : (moment s).moments = s.moments + 1 := rfl

/-! ### `reachBoundary` -/

@[simp] theorem reachBoundary_regs (s : State) : (reachBoundary s).regs = s.regs := rfl
@[simp] theorem reachBoundary_flags (s : State) : (reachBoundary s).flags = s.flags := rfl
@[simp] theorem reachBoundary_mem (s : State) : (reachBoundary s).mem = s.mem := rfl
@[simp] theorem reachBoundary_sched (s : State) : (reachBoundary s).sched = s.sched := rfl
@[simp] theorem reachBoundary_lc (s : State) : (reachBoundary s).lc = s.lc := rfl
@[simp] theorem reachBoundary_program (s : State) : (reachBoundary s).program = s.program := rfl
@[simp] theorem reachBoundary_labelMap (s : State) : (reachBoundary s).labelMap = s.labelMap := rfl
@[simp] theorem reachBoundary_host (s : State) : (reachBoundary s).host = s.host := rfl
@[simp] theorem reachBoundary_hooks (s : State) : (reachBoundary s).hooks = s.hooks := rfl
@[simp] theorem reachBoundary_draws (s : State) : (reachBoundary s).draws = s.draws + 1 := rfl
@[simp] theorem reachBoundary_checkPending (s : State) : (reachBoundary s).checkPending = Config.checkFollowsYield s.draws := rfl
@[simp] theorem reachBoundary_moments (s : State) : (reachBoundary s).moments = s.moments := rfl

/-! ### `publishProgress` -/

@[simp] theorem publishProgress_regs (s : State) : (publishProgress s).regs = s.regs := rfl
@[simp] theorem publishProgress_flags (s : State) : (publishProgress s).flags = s.flags := rfl
@[simp] theorem publishProgress_mem (s : State) : (publishProgress s).mem = s.mem := rfl
@[simp] theorem publishProgress_sched (s : State) : (publishProgress s).sched = s.sched := rfl
@[simp] theorem publishProgress_lc (s : State) : (publishProgress s).lc = s.lc := rfl
@[simp] theorem publishProgress_program (s : State) : (publishProgress s).program = s.program := rfl
@[simp] theorem publishProgress_labelMap (s : State) : (publishProgress s).labelMap = s.labelMap := rfl
@[simp] theorem publishProgress_host (s : State) : (publishProgress s).host = s.host := rfl
@[simp] theorem publishProgress_hooks (s : State) : (publishProgress s).hooks = s.hooks ++ [.progress s.lc s.program.length] := rfl
@[simp] theorem publishProgress_draws (s : State) : (publishProgress s).draws = s.draws := rfl
@[simp] theorem publishProgress_checkPending (s : State) : (publishProgress s).checkPending = s.checkPending := rfl
@[simp] theorem publishProgress_moments (s : State) : (publishProgress s).moments = s.moments := rfl

/-! ### `endRun` -/

@[simp] theorem endRun_regs (q : Sched) (s : State) : (endRun q s).regs = s.regs := rfl
@[simp] theorem endRun_flags (q : Sched) (s : State) : (endRun q s).flags = s.flags := rfl
@[simp] theorem endRun_mem (q : Sched) (s : State) : (endRun q s).mem = s.mem := rfl
@[simp] theorem endRun_sched (q : Sched) (s : State) : (endRun q s).sched = q := rfl
@[simp] theorem endRun_lc (q : Sched) (s : State) : (endRun q s).lc = s.lc := rfl
@[simp] theorem endRun_program (q : Sched) (s : State) : (endRun q s).program = [] := rfl
@[simp] theorem endRun_labelMap (q : Sched) (s : State) : (endRun q s).labelMap = [] := rfl
@[simp] theorem endRun_host (q : Sched) (s : State) : (endRun q s).host = s.host := rfl
@[simp] theorem endRun_hooks (q : Sched) (s : State) : (endRun q s).hooks = s.hooks := rfl
@[simp] theorem endRun_draws (q : Sched) (s : State) : (endRun q s).draws = s.draws := rfl
@[simp] theorem endRun_checkPending (q : Sched) (s : State) : (endRun q s).checkPending = false := rfl
@[simp] theorem endRun_moments (q : Sched) (s : State) : (endRun q s).moments = s.moments := rfl

/-! ### `raise` -/

@[simp] theorem raise_regs (e : ErrorKind) (s : State) : (raise e s).regs = s.regs := rfl
@[simp] theorem raise_flags (e : ErrorKind) (s : State) : (raise e s).flags = s.flags := rfl
@[simp] theorem raise_mem (e : ErrorKind) (s : State) : (raise e s).mem = s.mem := rfl
@[simp] theorem raise_sched (e : ErrorKind) (s : State) : (raise e s).sched = .haltedError := rfl
@[simp] theorem raise_lc (e : ErrorKind) (s : State) : (raise e s).lc = s.lc := rfl
@[simp] theorem raise_program (e : ErrorKind) (s : State) : (raise e s).program = [] := rfl
@[simp] theorem raise_labelMap (e : ErrorKind) (s : State) : (raise e s).labelMap = [] := rfl
@[simp] theorem raise_host (e : ErrorKind) (s : State) : (raise e s).host = s.host := rfl
@[simp] theorem raise_hooks (e : ErrorKind) (s : State) : (raise e s).hooks = s.hooks ++ [.error (s.lc + 1) e] := rfl
@[simp] theorem raise_draws (e : ErrorKind) (s : State) : (raise e s).draws = s.draws := rfl
@[simp] theorem raise_checkPending (e : ErrorKind) (s : State) : (raise e s).checkPending = false := rfl
@[simp] theorem raise_moments (e : ErrorKind) (s : State) : (raise e s).moments = s.moments := rfl

/-! ### `bumpCursor` -/

@[simp] theorem bumpCursor_regs (s : State) : (bumpCursor s).regs = s.regs := rfl
@[simp] theorem bumpCursor_flags (s : State) : (bumpCursor s).flags = s.flags := rfl
@[simp] theorem bumpCursor_mem (s : State) : (bumpCursor s).mem = s.mem := rfl
@[simp] theorem bumpCursor_sched (s : State) : (bumpCursor s).sched = s.sched := rfl
@[simp] theorem bumpCursor_lc (s : State) : (bumpCursor s).lc = s.lc + 1 := rfl
@[simp] theorem bumpCursor_program (s : State) : (bumpCursor s).program = s.program := rfl
@[simp] theorem bumpCursor_labelMap (s : State) : (bumpCursor s).labelMap = s.labelMap := rfl
@[simp] theorem bumpCursor_host (s : State) : (bumpCursor s).host = s.host := rfl
@[simp] theorem bumpCursor_hooks (s : State) : (bumpCursor s).hooks = s.hooks := rfl
@[simp] theorem bumpCursor_draws (s : State) : (bumpCursor s).draws = s.draws := rfl
@[simp] theorem bumpCursor_checkPending (s : State) : (bumpCursor s).checkPending = false := rfl
@[simp] theorem bumpCursor_moments (s : State) : (bumpCursor s).moments = s.moments := rfl

/-! ### `bumpSp` -/

@[simp] theorem bumpSp_regs (s : State) : (bumpSp s).regs = s.regs.set .sp (wrap16 (intOf (s.regs.get .sp) + 2)) := rfl
@[simp] theorem bumpSp_flags (s : State) : (bumpSp s).flags = s.flags := rfl
@[simp] theorem bumpSp_mem (s : State) : (bumpSp s).mem = s.mem := rfl
@[simp] theorem bumpSp_sched (s : State) : (bumpSp s).sched = s.sched := rfl
@[simp] theorem bumpSp_lc (s : State) : (bumpSp s).lc = s.lc := rfl
@[simp] theorem bumpSp_program (s : State) : (bumpSp s).program = s.program := rfl
@[simp] theorem bumpSp_labelMap (s : State) : (bumpSp s).labelMap = s.labelMap := rfl
@[simp] theorem bumpSp_host (s : State) : (bumpSp s).host = s.host := rfl
@[simp] theorem bumpSp_hooks (s : State) : (bumpSp s).hooks = s.hooks := rfl
@[simp] theorem bumpSp_draws (s : State) : (bumpSp s).draws = s.draws := rfl
@[simp] theorem bumpSp_checkPending (s : State) : (bumpSp s).checkPending = s.checkPending := rfl
@[simp] theorem bumpSp_moments (s : State) : (bumpSp s).moments = s.moments := rfl

/-! ### `loadProgram` -/

@[simp] theorem loadProgram_regs (l : List Text) (s : State) : (loadProgram l s).regs = s.regs := rfl
@[simp] theorem loadProgram_flags (l : List Text) (s : State) : (loadProgram l s).flags = s.flags := rfl
@[simp] theorem loadProgram_mem (l : List Text) (s : State) : (loadProgram l s).mem = s.mem := rfl
@[simp] theorem loadProgram_sched (l : List Text) (s : State) : (loadProgram l s).sched = .running := rfl
@[simp] theorem loadProgram_lc (l : List Text) (s : State) : (loadProgram l s).lc = 0 := rfl
@[simp] theorem loadProgram_program (l : List Text) (s : State) : (loadProgram l s).program = l := rfl
@[simp] theorem loadProgram_labelMap (l : List Text) (s : State) : (loadProgram l s).labelMap = labelsFrom 0 l := rfl
@[simp] theorem loadProgram_host (l : List Text) (s : State) : (loadProgram l s).host = s.host := rfl
@[simp] theorem loadProgram_hooks (l : List Text) (s : State) : (loadProgram l s).hooks = s.hooks := rfl
@[simp] theorem loadProgram_draws (l : List Text) (s : State) : (loadProgram l s).draws = s.draws := rfl
@[simp] theorem loadProgram_checkPending (l : List Text) (s : State) : (loadProgram l s).checkPending = false := rfl
@[simp] theorem loadProgram_moments (l : List Text) (s : State) : (loadProgram l s).moments = s.moments := rfl

/-! ### `resetStores` -/

@[simp] theorem resetStores_regs (s : State) : (resetStores s).regs = Regs.reset := rfl
@[simp] theorem resetStores_flags (s : State) : (resetStores s).flags = Flags.reset := rfl
@[simp] theorem resetStores_mem (s : State) : (resetStores s).mem = [] := rfl
@[simp] theorem resetStores_sched (s : State) : (resetStores s).sched = .idle := rfl
@[simp] theorem resetStores_lc (s : State) : (resetStores s).lc = 0 := rfl
@[simp] theorem resetStores_program (s : State) : (resetStores s).program = [] := rfl
@[simp] theorem resetStores_labelMap (s : State) : (resetStores s).labelMap = [] := rfl
@[simp] theorem resetStores_host (s : State) : (resetStores s).host = s.host := rfl
@[simp] theorem resetStores_hooks (s : State) : (resetStores s).hooks = [] := rfl
@[simp] theorem resetStores_draws (s : State) : (resetStores s).draws = s.draws := rfl
@[simp] theorem resetStores_checkPending (s : State) : (resetStores s).checkPending = false := rfl
@[simp] theorem resetStores_moments (s : State) : (resetStores s).moments = s.moments := rfl

/-! ### `writeSum` -/

@[simp] theorem writeSum_regs (r : Reg) (o : AluSum) (s : State) : (writeSum r o s).regs = s.regs.set r (wrap16 (intOf o.r)) := rfl
@[simp] theorem writeSum_flags (r : Reg) (o : AluSum) (s : State) : (writeSum r o s).flags = foldFlags s.flags o.raw o.carry o.overflow := rfl
@[simp] theorem writeSum_mem (r : Reg) (o : AluSum) (s : State) : (writeSum r o s).mem = s.mem := rfl
@[simp] theorem writeSum_sched (r : Reg) (o : AluSum) (s : State) : (writeSum r o s).sched = s.sched := rfl
@[simp] theorem writeSum_lc (r : Reg) (o : AluSum) (s : State) : (writeSum r o s).lc = s.lc := rfl
@[simp] theorem writeSum_program (r : Reg) (o : AluSum) (s : State) : (writeSum r o s).program = s.program := rfl
@[simp] theorem writeSum_labelMap (r : Reg) (o : AluSum) (s : State) : (writeSum r o s).labelMap = s.labelMap := rfl
@[simp] theorem writeSum_host (r : Reg) (o : AluSum) (s : State) : (writeSum r o s).host = s.host := rfl
@[simp] theorem writeSum_draws (r : Reg) (o : AluSum) (s : State) : (writeSum r o s).draws = s.draws := rfl
@[simp] theorem writeSum_checkPending (r : Reg) (o : AluSum) (s : State) : (writeSum r o s).checkPending = s.checkPending := rfl
@[simp] theorem writeSum_moments (r : Reg) (o : AluSum) (s : State) : (writeSum r o s).moments = s.moments + 2 := rfl

/-! ### `writeProduct` -/

@[simp] theorem writeProduct_regs (o : AluProduct) (s : State) : (writeProduct o s).regs = s.regs.set .ax (wrap16 (intOf o.r)) := rfl
@[simp] theorem writeProduct_flags (o : AluProduct) (s : State) : (writeProduct o s).flags = { s.flags with CF := o.big, OF := o.big } := rfl
@[simp] theorem writeProduct_mem (o : AluProduct) (s : State) : (writeProduct o s).mem = s.mem := rfl
@[simp] theorem writeProduct_sched (o : AluProduct) (s : State) : (writeProduct o s).sched = s.sched := rfl
@[simp] theorem writeProduct_lc (o : AluProduct) (s : State) : (writeProduct o s).lc = s.lc := rfl
@[simp] theorem writeProduct_program (o : AluProduct) (s : State) : (writeProduct o s).program = s.program := rfl
@[simp] theorem writeProduct_labelMap (o : AluProduct) (s : State) : (writeProduct o s).labelMap = s.labelMap := rfl
@[simp] theorem writeProduct_host (o : AluProduct) (s : State) : (writeProduct o s).host = s.host := rfl
@[simp] theorem writeProduct_draws (o : AluProduct) (s : State) : (writeProduct o s).draws = s.draws := rfl
@[simp] theorem writeProduct_checkPending (o : AluProduct) (s : State) : (writeProduct o s).checkPending = s.checkPending := rfl
@[simp] theorem writeProduct_moments (o : AluProduct) (s : State) : (writeProduct o s).moments = s.moments + 3 := rfl

/-! ### `writeQuotient` -/

@[simp] theorem writeQuotient_regs (o : AluQuotient) (s : State) : (writeQuotient o s).regs = (s.regs.set .ax (wrap16 (o.q : Int))).set .dx (wrap16 (o.m : Int)) := rfl
@[simp] theorem writeQuotient_flags (o : AluQuotient) (s : State) : (writeQuotient o s).flags = s.flags := rfl
@[simp] theorem writeQuotient_mem (o : AluQuotient) (s : State) : (writeQuotient o s).mem = s.mem := rfl
@[simp] theorem writeQuotient_sched (o : AluQuotient) (s : State) : (writeQuotient o s).sched = s.sched := rfl
@[simp] theorem writeQuotient_lc (o : AluQuotient) (s : State) : (writeQuotient o s).lc = s.lc := rfl
@[simp] theorem writeQuotient_program (o : AluQuotient) (s : State) : (writeQuotient o s).program = s.program := rfl
@[simp] theorem writeQuotient_labelMap (o : AluQuotient) (s : State) : (writeQuotient o s).labelMap = s.labelMap := rfl
@[simp] theorem writeQuotient_host (o : AluQuotient) (s : State) : (writeQuotient o s).host = s.host := rfl
@[simp] theorem writeQuotient_draws (o : AluQuotient) (s : State) : (writeQuotient o s).draws = s.draws := rfl
@[simp] theorem writeQuotient_checkPending (o : AluQuotient) (s : State) : (writeQuotient o s).checkPending = s.checkPending := rfl
@[simp] theorem writeQuotient_moments (o : AluQuotient) (s : State) : (writeQuotient o s).moments = s.moments + 2 := rfl

end Sys2Proof.Machine
end

