-- ==== Sys2Proof/Laws/Ops.lean ====
section
/-! SUPPORT. What each shared operation does, said once: the Register File, the Memory Unit, and the meanings'
shared bodies as one equation each. -/

namespace Sys2Proof.Machine

/-! ### The Register File -/

theorem Regs.get_set (rs : Regs) (r q : Reg) (v : Word) :
    (rs.set r v).get q = if q = r then v else rs.get q := by
  cases r <;> cases q <;> rfl

@[simp] theorem Regs.get_set_same (rs : Regs) (r : Reg) (v : Word) : (rs.set r v).get r = v := by
  rw [Regs.get_set, if_pos rfl]

theorem Regs.get_set_other (rs : Regs) {r q : Reg} (v : Word) (h : q ≠ r) : (rs.set r v).get q = rs.get q := by
  rw [Regs.get_set, if_neg h]

theorem Regs.set_set_same (rs : Regs) (r : Reg) (v w : Word) : (rs.set r v).set r w = rs.set r w := by
  cases r <;> rfl

theorem getRegister_eq (s : State) (q : Reg) : getRegister s q = s.regs.get q := rfl

theorem getRegister_setRegister (s : State) (r q : Reg) (v : Int) :
    getRegister (setRegister s r v) q = if q = r then wrap16 v else getRegister s q := by
  rw [getRegister_eq, setRegister_regs, Regs.get_set, getRegister_eq]

/-- A state whose registers are those of another with one replaced. -/
theorem keepsRegsExcept_of_set {s t : State} {r : Reg} {v : Word} (h : t.regs = s.regs.set r v) :
    keepsRegsExcept [r] s t := by
  intro q hq
  rw [getRegister_eq, h, Regs.get_set_other _ _ (by simpa using hq), getRegister_eq]

theorem keepsRegsExcept_of_eq {s t : State} (rs : List Reg) (h : t.regs = s.regs) : keepsRegsExcept rs s t := by
  intro q _
  rw [getRegister_eq, h, getRegister_eq]

/-! ### The Memory Unit -/

/-- What a byte read gives depends on the memory array only. -/
theorem readByte_congr {s t : State} (h : t.mem = s.mem) (b : Int) : readByte t b = readByte s b := by
  simp only [readByte, h]

theorem keepsMemory_of_eq {s t : State} (h : t.mem = s.mem) : keepsMemory s t := fun b => readByte_congr h b

theorem readByte_ok {s : State} {a : Int} (h : inRangeByte a) : readByte s a = .ok (s.mem.byteAt a.toNat) := by
  rw [readByte, if_pos h]

theorem readWord_ok {s : State} {a : Int} (h : inRangeWord a) :
    readWord s a = .ok (wordOfBytes (s.mem.byteAt a.toNat) (s.mem.byteAt (a.toNat + 1))) := by
  rw [readWord, if_pos h]

theorem readWord_error {s : State} {a : Int} (h : ¬ inRangeWord a) : readWord s a = .error .addressOutOfRange := by
  rw [readWord, if_neg h]

theorem readWord_congr {s t : State} (h : t.mem = s.mem) (a : Int) : readWord t a = readWord s a := by
  simp only [readWord, h]

/-- The state a word write leaves. -/
def wroteWord (s : State) (a : Int) (v : Word) : State :=
  invokeHook { s with mem := s.mem.setWord a.toNat v } (.memoryChanged a.toNat 2)

theorem writeWord_ok {s : State} {a v : Int} (h : inRangeWord a) :
    writeWord s a v = .ok (wroteWord s a (wrap16 v)) := by
  rw [writeWord, if_pos h]
  rfl

theorem writeWord_error {s : State} {a v : Int} (h : ¬ inRangeWord a) :
    writeWord s a v = .error .addressOutOfRange := by
  rw [writeWord, if_neg h]

@[simp] theorem wroteWord_regs (s : State) (a : Int) (v : Word) : (wroteWord s a v).regs = s.regs := rfl
@[simp] theorem wroteWord_flags (s : State) (a : Int) (v : Word) : (wroteWord s a v).flags = s.flags := rfl
@[simp] theorem wroteWord_mem (s : State) (a : Int) (v : Word) :
    (wroteWord s a v).mem = s.mem.setWord a.toNat v := rfl
@[simp] theorem wroteWord_sched (s : State) (a : Int) (v : Word) : (wroteWord s a v).sched = s.sched := rfl
@[simp] theorem wroteWord_lc (s : State) (a : Int) (v : Word) : (wroteWord s a v).lc = s.lc := rfl
@[simp] theorem wroteWord_program (s : State) (a : Int) (v : Word) : (wroteWord s a v).program = s.program := rfl
@[simp] theorem wroteWord_labelMap (s : State) (a : Int) (v : Word) : (wroteWord s a v).labelMap = s.labelMap := rfl
@[simp] theorem wroteWord_host (s : State) (a : Int) (v : Word) : (wroteWord s a v).host = s.host := rfl
@[simp] theorem wroteWord_hooks (s : State) (a : Int) (v : Word) :
    (wroteWord s a v).hooks = s.hooks ++ [.memoryChanged a.toNat 2] := rfl
@[simp] theorem wroteWord_draws (s : State) (a : Int) (v : Word) : (wroteWord s a v).draws = s.draws := rfl
@[simp] theorem wroteWord_checkPending (s : State) (a : Int) (v : Word) :
    (wroteWord s a v).checkPending = s.checkPending := rfl
@[simp] theorem wroteWord_moments (s : State) (a : Int) (v : Word) : (wroteWord s a v).moments = s.moments := rfl

/-- The word read back after it was written. -/
theorem readWord_of_mem {s t : State} {a : Int} {v : Word} (h : inRangeWord a)
    (hm : t.mem = s.mem.setWord a.toNat v) : readWord t a = .ok v := by
  rw [readWord_ok h, hm, Memory.byteAt_setWord, Memory.byteAt_setWord]
  simp

/-- A word write changes the two bytes of the word and no other. -/
theorem keepsMemoryExceptWord_of_mem {s t : State} {a : Int} {v : Word} (h : inRangeWord a)
    (hm : t.mem = s.mem.setWord a.toNat v) : keepsMemoryExceptWord a s t := by
  intro b h1 h2
  have h0 := h.1
  by_cases hb : inRangeByte b
  · have h3 := hb.1
    rw [readByte_ok hb, readByte_ok hb, hm, Memory.byteAt_setWord, if_neg (by omega), if_neg (by omega)]
  · rw [readByte, if_neg hb, readByte, if_neg hb]

/-- Every 16-bit address is in range for a word access (R52). -/
theorem inRangeWord_word (w : Word) : inRangeWord (intOf w) := by
  have h1 := intOf_nonneg w
  have h2 := intOf_lt w
  constructor <;> omega

/-! ### Moments inside an instruction, and what the host is told for certain (R31) -/

@[simp] theorem getRegister_moment (s : State) (q : Reg) : getRegister (moment s) q = getRegister s q := rfl

@[simp] theorem certainCalls_append (hs ks : List HookCall) :
    certainCalls (hs ++ ks) = certainCalls hs ++ certainCalls ks := List.filter_append ..

@[simp] theorem certainCalls_nil : certainCalls [] = [] := rfl

@[simp] theorem certainCalls_moment (d : Nat) (v : Snapshot) (hs : List HookCall) :
    certainCalls (.moment d v :: hs) = certainCalls hs := rfl

@[simp] theorem certainCalls_memoryChanged (a w : Nat) (hs : List HookCall) :
    certainCalls (.memoryChanged a w :: hs) = .memoryChanged a w :: certainCalls hs := rfl

/-- A moment tells the host nothing for certain. -/
@[simp] theorem tellsHost_moment {calls : List HookCall} {s t : State} :
    tellsHost calls s (moment t) ↔ tellsHost calls s t := by
  simp [tellsHost]

theorem tellsHost_of_eq {s t : State} (h : t.hooks = s.hooks) : tellsHost [] s t := by simp [tellsHost, h]

/-- The state at a moment may be shown, and what follows leaves the moment on record. -/
theorem mayBeShown_of_prefix {v s t : State} {hs : List HookCall} (hm : s.moments ≤ v.moments)
    (h : t.hooks = (moment v).hooks ++ hs) : mayBeShown v s t :=
  ⟨v.moments, hm, by simp [h]⟩

/-! ### The shared bodies of the meanings -/

theorem moveToRegister_eq (r : Reg) (src : Source) (s : State) :
    moveToRegister r src s = .next (moment (setRegister s r (intOf (value s src)))) := rfl

theorem loadRegister_ok {r : Reg} {a : Int} {s : State} (h : inRangeWord a) :
    loadRegister r a s
      = .next (moment
          (setRegister s r (intOf (wordOfBytes (s.mem.byteAt a.toNat) (s.mem.byteAt (a.toNat + 1)))))) := by
  rw [loadRegister, readWord_ok h]

theorem loadRegister_error {r : Reg} {a : Int} {s : State} (h : ¬ inRangeWord a) :
    loadRegister r a s = .next (raise .addressOutOfRange s) := by
  rw [loadRegister, readWord_error h]

theorem storeValue_ok {a : Int} {src : Source} {s : State} (h : inRangeWord a) :
    storeValue a src s = .next (moment (wroteWord s a (value s src))) := by
  rw [storeValue, writeWord_ok h, wrap16_intOf]

theorem storeValue_error {a : Int} {src : Source} {s : State} (h : ¬ inRangeWord a) :
    storeValue a src s = .next (raise .addressOutOfRange s) := by
  rw [storeValue, writeWord_error h]

/-- A push always completes (R115, R52). -/
theorem pushValue_eq (src : Source) (s : State) :
    pushValue src s
      = .next (moment (wroteWord (moment (setRegister s .sp (intOf (getRegister s .sp) - 2))) (intOf (pushAddress s))
          (value s src))) := by
  rw [pushValue, writeWord_ok (inRangeWord_word _), wrap16_intOf]

/-- The word a pop reads (R117). -/
def poppedWord (s : State) : Word :=
  wordOfBytes (s.mem.byteAt (getRegister s .sp).toNat) (s.mem.byteAt ((getRegister s .sp).toNat + 1))

/-- A pop always completes (R117, R52). -/
theorem popRegister_eq (r : Reg) (s : State) :
    popRegister r s = .next (moment (bumpSp (moment (setRegister s r (intOf (poppedWord s)))))) := by
  rw [popRegister, readWord_ok (inRangeWord_word _)]
  simp only [poppedWord, popAddress, intOf, Int.toNat_natCast]

/-- The quotient of two words fits a word (R143). -/
theorem aluDiv_fits (a b : Word) : (aluDiv a b).q ≤ 0xFFFF := by
  have h1 : a.toNat / b.toNat ≤ a.toNat := Nat.div_le_self _ _
  have h2 := a.isLt
  simp only [aluDiv]
  omega

theorem divAx_zero {src : Source} {s : State} (h : value s src = 0) :
    divAx src s = .next (raise .divideByZero s) := by
  rw [divAx, if_pos h]

theorem divAx_nonzero {src : Source} {s : State} (h : value s src ≠ 0) :
    divAx src s = .next (writeQuotient (aluDiv (getRegister s .ax) (value s src)) s) := by
  rw [divAx, if_neg h, if_neg (Nat.not_lt.mpr (aluDiv_fits _ _))]

end Sys2Proof.Machine
end

