-- ==== Sys2Proof/Laws/PerInstr.lean ====
section
/-! SUPPORT. Facts said once for each constructor of `Instr`. -/

namespace Sys2Proof.Laws.DiwFieldsRoundTrip

/-- The fields of a well-formed instruction's word determine it (R97, R98). -/
def Statement (i : Instr) : Prop := i.WellFormed → instrOfFields (fieldsOfInstr i) = some i

theorem movRegReg (dst src : Reg) : Statement (.movRegReg dst src) := by
  intro h
  simp [fieldsOfInstr, instrOfFields, bareFields, DiwFields.onlyUses, withDrSr]

theorem movRegImm (dst : Reg) (imm : Word) : Statement (.movRegImm dst imm) := by
  intro h
  simp [fieldsOfInstr, instrOfFields, bareFields, DiwFields.onlyUses, withDr]

theorem movRegMem (dst : Reg) (addr : Int) : Statement (.movRegMem dst addr) := by
  intro h
  have hx : addrExact addr = true := by simpa only [Instr.WellFormed, Instr.wellFormed] using h
  have ha := putAddr_address ({ bareFields 0 1 3 with dr := dst.num }) hx
  simp only [fieldsOfInstr]
  generalize hf : DiwFields.putAddr ({ bareFields 0 1 3 with dr := dst.num }) addr = f at ha ⊢
  have hp : f.op = 0 ∧ f.dk = 1 ∧ f.sk = 3 ∧ f.dr = dst.num ∧ f.onlyUses true false true false = true := by
    subst hf
    unfold DiwFields.putAddr
    split <;> simp [bareFields, DiwFields.onlyUses]
  simp [instrOfFields, hp, withDr, ha]

theorem movMemReg (addr : Int) (src : Reg) : Statement (.movMemReg addr src) := by
  intro h
  have hx : addrExact addr = true := by simpa only [Instr.WellFormed, Instr.wellFormed] using h
  have ha := putAddr_address ({ bareFields 0 2 1 with sr := src.num }) hx
  simp only [fieldsOfInstr]
  generalize hf : DiwFields.putAddr ({ bareFields 0 2 1 with sr := src.num }) addr = f at ha ⊢
  have hp : f.op = 0 ∧ f.dk = 2 ∧ f.sk = 1 ∧ f.sr = src.num ∧ f.onlyUses false true true false = true := by
    subst hf
    unfold DiwFields.putAddr
    split <;> simp [bareFields, DiwFields.onlyUses]
  simp [instrOfFields, hp, withSr, ha]

theorem movMemImm (addr : Int) (imm : Word) : Statement (.movMemImm addr imm) := by
  intro h
  have hx : addrExact addr = true := by simpa only [Instr.WellFormed, Instr.wellFormed] using h
  have ha := putAddr_address ({ bareFields 0 2 2 with imm := imm }) hx
  simp only [fieldsOfInstr]
  generalize hf : DiwFields.putAddr ({ bareFields 0 2 2 with imm := imm }) addr = f at ha ⊢
  have hp : f.op = 0 ∧ f.dk = 2 ∧ f.sk = 2 ∧ f.imm = imm ∧ f.onlyUses false false true true = true := by
    subst hf
    unfold DiwFields.putAddr
    split <;> simp [bareFields, DiwFields.onlyUses]
  simp [instrOfFields, hp, ha]

theorem pushReg (src : Reg) : Statement (.pushReg src) := by
  intro h
  simp [fieldsOfInstr, instrOfFields, bareFields, DiwFields.onlyUses, withSr]

theorem pushImm (imm : Word) : Statement (.pushImm imm) := by
  intro h
  simp [fieldsOfInstr, instrOfFields, bareFields, DiwFields.onlyUses]

theorem popReg (dst : Reg) : Statement (.popReg dst) := by
  intro h
  simp [fieldsOfInstr, instrOfFields, bareFields, DiwFields.onlyUses, withDr]

theorem addRegReg (dst src : Reg) : Statement (.addRegReg dst src) := by
  intro h
  simp [fieldsOfInstr, instrOfFields, bareFields, DiwFields.onlyUses, withDrSr]

theorem addRegImm (dst : Reg) (imm : Word) : Statement (.addRegImm dst imm) := by
  intro h
  simp [fieldsOfInstr, instrOfFields, bareFields, DiwFields.onlyUses, withDr]

theorem subRegReg (dst src : Reg) : Statement (.subRegReg dst src) := by
  intro h
  simp [fieldsOfInstr, instrOfFields, bareFields, DiwFields.onlyUses, withDrSr]

theorem subRegImm (dst : Reg) (imm : Word) : Statement (.subRegImm dst imm) := by
  intro h
  simp [fieldsOfInstr, instrOfFields, bareFields, DiwFields.onlyUses, withDr]

theorem mulReg (src : Reg) : Statement (.mulReg src) := by
  intro h
  simp [fieldsOfInstr, instrOfFields, bareFields, DiwFields.onlyUses, withSr]

theorem mulImm (imm : Word) : Statement (.mulImm imm) := by
  intro h
  simp [fieldsOfInstr, instrOfFields, bareFields, DiwFields.onlyUses]

theorem divReg (src : Reg) : Statement (.divReg src) := by
  intro h
  simp [fieldsOfInstr, instrOfFields, bareFields, DiwFields.onlyUses, withSr]

theorem divImm (imm : Word) : Statement (.divImm imm) := by
  intro h
  simp [fieldsOfInstr, instrOfFields, bareFields, DiwFields.onlyUses]

end Sys2Proof.Laws.DiwFieldsRoundTrip
end

