-- ==== Sys2Proof/Laws/Step.lean ====
section
/-! SUPPORT. What one instruction, one processed line and one step can do, each said once. -/

namespace Sys2Proof.Machine

/-! ### The hooks -/

@[simp] theorem errorCalls_append (hs ks : List HookCall) : errorCalls (hs ++ ks) = errorCalls hs ++ errorCalls ks := by
  induction hs with
  | nil => rfl
  | cons h hs ih => cases h <;> simp [errorCalls, ih]

@[simp] theorem errorCalls_nil : errorCalls [] = [] := rfl
@[simp] theorem errorCalls_memoryChanged (a w : Nat) (hs : List HookCall) :
    errorCalls (.memoryChanged a w :: hs) = errorCalls hs := rfl
@[simp] theorem errorCalls_observed (p : Snapshot) (hs : List HookCall) : errorCalls (.observed p :: hs) = errorCalls hs := rfl
@[simp] theorem errorCalls_moment (d : Nat) (p : Snapshot) (hs : List HookCall) :
    errorCalls (.moment d p :: hs) = errorCalls hs := rfl
@[simp] theorem errorCalls_progress (a n : Nat) (hs : List HookCall) : errorCalls (.progress a n :: hs) = errorCalls hs := rfl
@[simp] theorem errorCalls_error (n : Nat) (e : ErrorKind) (hs : List HookCall) :
    errorCalls (.error n e :: hs) = .error n e :: errorCalls hs := rfl

/-! ### One instruction -/

/-- How the flags have changed, for each row of R22. -/
def FlagsFollow : FlagRow → Flags → Flags → Prop
  | .all, f, g => g.AF = false ∧ g.DF = f.DF
  | .carryOverflow, f, g => { g with CF := f.CF, OF := f.OF } = f ∧ g.CF = g.OF
  | .none, f, g => g = f

/-- DF follows from every row. -/
theorem FlagsFollow.direction {r : FlagRow} {f g : Flags} (h : FlagsFollow r f g) : g.DF = f.DF := by
  cases r with
  | all => exact h.2
  | carryOverflow =>
    have e := congrArg Flags.DF h.1
    exact e
  | none => rw [show g = f from h]

/-- AF stays 0 along every row. -/
theorem FlagsFollow.auxiliary {r : FlagRow} {f g : Flags} (h : FlagsFollow r f g) (hf : f.AF = false) :
    g.AF = false := by
  cases r with
  | all => exact h.1
  | carryOverflow =>
    have e := congrArg Flags.AF h.1
    exact Eq.trans e hf
  | none => rw [show g = f from h, hf]

/-- What an instruction that has not failed leaves unchanged, whichever it is. -/
structure Completed (i : Instr) (s t : State) : Prop where
  regs : keepsRegsExcept i.writes s t
  sequencing : keepsSequencing s t
  flags : FlagsFollow i.flagRow s.flags t.flags
  memory : i.stores = false → t.mem = s.mem
  canonical : s.mem.wf = true → t.mem.wf = true
  errors : errorCalls t.hooks = errorCalls s.hooks

theorem keepsSequencing_setRegister (s : State) (r : Reg) (v : Int) : keepsSequencing s (setRegister s r v) :=
  ⟨rfl, rfl, rfl, rfl, rfl, rfl, rfl⟩

theorem keepsSequencing_wroteWord (s : State) (a : Int) (v : Word) : keepsSequencing s (wroteWord s a v) :=
  ⟨rfl, rfl, rfl, rfl, rfl, rfl, rfl⟩

theorem completed_move (i : Instr) (r : Reg) (v : Int) (s : State) (hw : i.writes = [r])
    (hf : i.flagRow = .none) : Completed i s (moment (setRegister s r v)) where
  regs := by rw [hw]; exact keepsRegsExcept_of_set rfl
  sequencing := ⟨rfl, rfl, rfl, rfl, rfl, rfl, rfl⟩
  flags := by rw [hf]; rfl
  memory := fun _ => rfl
  canonical := id
  errors := by simp

theorem completed_store (i : Instr) (a : Int) (v : Word) (s : State) (ha : inRangeWord a)
    (hf : i.flagRow = .none) (hm : i.stores = true) : Completed i s (moment (wroteWord s a v)) where
  regs := keepsRegsExcept_of_eq _ rfl
  sequencing := ⟨rfl, rfl, rfl, rfl, rfl, rfl, rfl⟩
  flags := by rw [hf]; rfl
  memory := fun h => absurd (hm.symm.trans h) (by decide)
  canonical := fun h => by
    have h1 := ha.2
    exact Memory.wf_setWord _ (by simp only [Config.memSize]; omega) h
  errors := by simp

theorem completed_push (i : Instr) (src : Source) (s : State) (hw : i.writes = [.sp])
    (hf : i.flagRow = .none) (hm : i.stores = true) :
    Completed i s
      (moment (wroteWord (moment (setRegister s .sp (intOf (getRegister s .sp) - 2))) (intOf (pushAddress s))
        (value s src))) where
  regs := by rw [hw]; exact keepsRegsExcept_of_set rfl
  sequencing := ⟨rfl, rfl, rfl, rfl, rfl, rfl, rfl⟩
  flags := by rw [hf]; rfl
  memory := fun h => absurd (hm.symm.trans h) (by decide)
  canonical := fun h => by
    have h1 := (inRangeWord_word (pushAddress s)).2
    exact Memory.wf_setWord _ (by simp only [Config.memSize]; omega) h
  errors := by simp

theorem completed_pop (r : Reg) (s : State) :
    Completed (.popReg r) s (moment (bumpSp (moment (setRegister s r (intOf (poppedWord s)))))) where
  regs := by
    intro q hq
    simp only [Instr.writes, List.mem_cons, List.not_mem_nil, or_false, not_or] at hq
    rw [getRegister_moment, getRegister_eq, bumpSp_regs, Regs.get_set_other _ _ hq.2, moment_regs, setRegister_regs, Regs.get_set_other _ _ hq.1,
      getRegister_eq]
  sequencing := ⟨rfl, rfl, rfl, rfl, rfl, rfl, rfl⟩
  flags := rfl
  memory := fun _ => rfl
  canonical := id
  errors := by simp

theorem completed_sum (i : Instr) (r : Reg) (o : AluSum) (s : State) (hw : i.writes = [r])
    (hf : i.flagRow = .all) : Completed i s (writeSum r o s) where
  regs := by rw [hw]; exact keepsRegsExcept_of_set rfl
  sequencing := ⟨rfl, rfl, rfl, rfl, rfl, rfl, rfl⟩
  flags := by rw [hf]; exact ⟨rfl, rfl⟩
  memory := fun _ => rfl
  canonical := id
  errors := by simp [writeSum]

theorem completed_product (i : Instr) (o : AluProduct) (s : State) (hw : i.writes = [.ax])
    (hf : i.flagRow = .carryOverflow) : Completed i s (writeProduct o s) where
  regs := by rw [hw]; exact keepsRegsExcept_of_set rfl
  sequencing := ⟨rfl, rfl, rfl, rfl, rfl, rfl, rfl⟩
  flags := by rw [hf]; exact ⟨rfl, rfl⟩
  memory := fun _ => rfl
  canonical := id
  errors := by simp [writeProduct]

theorem completed_quotient (i : Instr) (o : AluQuotient) (s : State) (hw : i.writes = [.ax, .dx])
    (hf : i.flagRow = .none) : Completed i s (writeQuotient o s) where
  regs := by
    intro q hq
    simp only [hw, List.mem_cons, List.not_mem_nil, or_false, not_or] at hq
    rw [getRegister_eq, writeQuotient_regs, Regs.get_set_other _ _ hq.2, Regs.get_set_other _ _ hq.1, getRegister_eq]
  sequencing := ⟨rfl, rfl, rfl, rfl, rfl, rfl, rfl⟩
  flags := by rw [hf]; rfl
  memory := fun _ => rfl
  canonical := id
  errors := by simp [writeQuotient]

/-- The failures of execution and the instructions that can take them (R170). -/
inductive CanFail : Instr → ErrorKind → Prop
  | load (r : Reg) (a : Int) : CanFail (.movRegMem r a) .addressOutOfRange
  | storeReg (a : Int) (q : Reg) : CanFail (.movMemReg a q) .addressOutOfRange
  | storeImm (a : Int) (n : Word) : CanFail (.movMemImm a n) .addressOutOfRange
  | divReg (q : Reg) : CanFail (.divReg q) .divideByZero
  | divImm (n : Word) : CanFail (.divImm n) .divideByZero

theorem CanFail.kind {i : Instr} {e : ErrorKind} (h : CanFail i e) : e = .divideByZero ∨ e = .addressOutOfRange := by
  cases h <;> simp

theorem CanFail.flagRow {i : Instr} {e : ErrorKind} (h : CanFail i e) : i.flagRow = .none := by cases h <;> rfl

/-- How an instruction ends: it has failed with a kind it can fail with, or it has completed. -/
inductive EndsIn (i : Instr) (s : State) : State → Prop
  | failed (e : ErrorKind) (h : CanFail i e) : EndsIn i s (raise e s)
  | completed (t : State) (h : Completed i s t) : EndsIn i s t

theorem endsIn_load (r : Reg) (a : Int) (s : State) :
    ∃ t, loadRegister r a s = .next t ∧ EndsIn (.movRegMem r a) s t := by
  by_cases h : inRangeWord a
  · exact ⟨_, loadRegister_ok h, .completed _ (completed_move _ r _ s rfl rfl)⟩
  · exact ⟨_, loadRegister_error h, .failed _ (.load r a)⟩

theorem endsIn_store (i : Instr) (a : Int) (src : Source) (s : State) (hf : i.flagRow = .none)
    (hm : i.stores = true) (hc : CanFail i .addressOutOfRange) :
    ∃ t, storeValue a src s = .next t ∧ EndsIn i s t := by
  by_cases h : inRangeWord a
  · exact ⟨_, storeValue_ok h, .completed _ (completed_store i a _ s h hf hm)⟩
  · exact ⟨_, storeValue_error h, .failed _ hc⟩

theorem endsIn_div (i : Instr) (src : Source) (s : State) (hw : i.writes = [.ax, .dx]) (hf : i.flagRow = .none)
    (hc : CanFail i .divideByZero) : ∃ t, divAx src s = .next t ∧ EndsIn i s t := by
  by_cases h : value s src = 0
  · exact ⟨_, divAx_zero h, .failed _ hc⟩
  · exact ⟨_, divAx_nonzero h, .completed _ (completed_quotient i _ s hw hf)⟩

/-- The inversion of `exec`: what any instruction can do. -/
theorem exec_cases (i : Instr) (s : State) : ∃ t, exec i s = .next t ∧ EndsIn i s t := by
  cases i with
  | movRegReg r q => exact ⟨_, rfl, .completed _ (completed_move _ r _ s rfl rfl)⟩
  | movRegImm r n => exact ⟨_, rfl, .completed _ (completed_move _ r _ s rfl rfl)⟩
  | movRegMem r a => exact endsIn_load r a s
  | movMemReg a q => exact endsIn_store _ a (.reg q) s rfl rfl (.storeReg a q)
  | movMemImm a n => exact endsIn_store _ a (.imm n) s rfl rfl (.storeImm a n)
  | pushReg q => exact ⟨_, pushValue_eq _ s, .completed _ (completed_push _ (.reg q) s rfl rfl rfl)⟩
  | pushImm n => exact ⟨_, pushValue_eq _ s, .completed _ (completed_push _ (.imm n) s rfl rfl rfl)⟩
  | popReg r => exact ⟨_, popRegister_eq r s, .completed _ (completed_pop r s)⟩
  | addRegReg r q => exact ⟨_, rfl, .completed _ (completed_sum _ r _ s rfl rfl)⟩
  | addRegImm r n => exact ⟨_, rfl, .completed _ (completed_sum _ r _ s rfl rfl)⟩
  | subRegReg r q => exact ⟨_, rfl, .completed _ (completed_sum _ r _ s rfl rfl)⟩
  | subRegImm r n => exact ⟨_, rfl, .completed _ (completed_sum _ r _ s rfl rfl)⟩
  | mulReg q => exact ⟨_, rfl, .completed _ (completed_product _ _ s rfl rfl)⟩
  | mulImm n => exact ⟨_, rfl, .completed _ (completed_product _ _ s rfl rfl)⟩
  | divReg q => exact endsIn_div _ (.reg q) s rfl rfl (.divReg q)
  | divImm n => exact endsIn_div _ (.imm n) s rfl rfl (.divImm n)

/-! ### One processed line -/

/-- The scheduler is Running or Stopping. -/
theorem busy_iff (s : State) : s.busy = true ↔ s.sched = .running ∨ s.sched = .stopping := by
  simp [State.busy]

/-- The four ways the cursor settles (R166, R185, R189). -/
inductive Settled (s : State) : State → Prop
  | ended (h : s.program.length ≤ s.lc + 1) : Settled s (endRun .haltedOk (publishProgress (bumpCursor s)))
  | cancelled (h : s.lc + 1 < s.program.length) (hb : (s.lc + 1) % 100 = 0) (hs : s.sched = .stopping)
      (hc : Config.checkFollowsYield s.draws = false) :
      Settled s (endRun .idle (reachBoundary (publishProgress (bumpCursor s))))
  | nextBatch (h : s.lc + 1 < s.program.length) (hb : (s.lc + 1) % 100 = 0)
      (hs : s.sched = .stopping → Config.checkFollowsYield s.draws = true) :
      Settled s (reachBoundary (publishProgress (bumpCursor s)))
  | sameBatch (h : s.lc + 1 < s.program.length) (hb : (s.lc + 1) % 100 ≠ 0) : Settled s (bumpCursor s)

/-- The inversion of `advanceLine`. -/
theorem advanceLine_cases (s : State) : Settled s (advanceLine s) := by
  unfold advanceLine settleCursor
  by_cases h1 : totalLines (bumpCursor s) ≤ (bumpCursor s).lc
  · rw [if_pos h1]
    exact .ended h1
  · have h1' : s.lc + 1 < s.program.length := Nat.lt_of_not_le h1
    rw [if_neg h1]
    by_cases h2 : (s.lc + 1) % 100 = 0
    · have hb : atBoundary (bumpCursor s) = true := by simp [atBoundary, Config.batch, h2]
      rw [if_pos hb, yieldAtBoundary, publishProgress_draws, bumpCursor_draws]
      by_cases hc : Config.checkFollowsYield s.draws = true
      · rw [if_pos hc]
        exact .nextBatch h1' h2 (fun _ => hc)
      · rw [if_neg hc, checkBoundary]
        by_cases h3 : s.sched = .stopping
        · rw [if_pos (by simpa using h3)]
          exact .cancelled h1' h2 h3 (by simpa using hc)
        · rw [if_neg (by simpa using h3)]
          exact .nextBatch h1' h2 (fun h => absurd h h3)
    · have hb : ¬ atBoundary (bumpCursor s) = true := by simp [atBoundary, Config.batch, h2]
      rw [if_neg hb]
      exact .sameBatch h1' h2

/-- A processed line changes no store and moves the cursor by one. -/
theorem advanceLine_keeps (s : State) : keepsStores s (advanceLine s) ∧ (advanceLine s).lc = s.lc + 1
    ∧ (advanceLine s).host = s.host := by
  have h := advanceLine_cases s
  generalize advanceLine s = u at h ⊢
  cases h <;> exact ⟨⟨rfl, rfl, rfl⟩, rfl, rfl⟩

/-- The progress hook is invoked exactly after a batch and after the last line (R190). -/
theorem advanceLine_hooks {s : State} (hl : s.lc < s.program.length) :
    (advanceLine s).hooks = s.hooks ++ progressDue s := by
  have h := advanceLine_cases s
  unfold progressDue
  generalize advanceLine s = u at h ⊢
  cases h with
  | ended h => rw [if_pos (.inr (by omega))]; rfl
  | cancelled _ hb _ _ => rw [if_pos (.inl hb)]; rfl
  | nextBatch _ hb _ => rw [if_pos (.inl hb)]; rfl
  | sameBatch h hb => rw [if_neg (by omega), List.append_nil]; rfl

/-- The three things that processing a line can come to: a failure, or a state `p` from which the cursor moves
on, which is the state before (a no-op line) or what a completed instruction left, with its snapshot. -/
inductive Processed (s : State) : State → Prop
  | failed (e : ErrorKind) : Processed s (raise e s)
  | skipped : Processed s (advanceLine s)
  | executed (i : Instr) (t : State) (ht : exec i s = .next t) (hc : Completed i s t) (hs : t.sched ≠ .haltedError) :
      Processed s (advanceLine (publishSnapshot t))

/-- The inversion of `runLine`, from a state in which a run is in progress. -/
theorem runLine_cases (line : Text) (s : State) (hb : s.busy = true) :
    ∃ u, runLine line s = .next u ∧ Processed s u := by
  unfold runLine
  cases decodeLine line with
  | noOp => exact ⟨_, rfl, .skipped⟩
  | failure e => exact ⟨_, rfl, .failed e⟩
  | instr i =>
    obtain ⟨t, ht, hc⟩ := exec_cases i s
    simp only [runInstruction, ht]
    cases hc with
    | failed e _ => exact ⟨_, rfl, by simpa [finishInstruction] using Processed.failed (s := s) e⟩
    | completed _ hc =>
      have hs : t.sched ≠ .haltedError := by
        rw [hc.sequencing.1]
        rcases (busy_iff s).mp hb with h | h <;> rw [h] <;> decide
      exact ⟨_, rfl, by simpa [finishInstruction, hs] using Processed.executed i t ht hc hs⟩

/-! ### One step -/

@[simp] theorem takeMove_sched (s : State) : (takeMove s).sched = s.sched := rfl
@[simp] theorem takeMove_busy (s : State) : (takeMove s).busy = s.busy := rfl
@[simp] theorem takeMove_draws (s : State) : (takeMove s).draws = s.draws := rfl
@[simp] theorem takeMove_checkPending (s : State) : (takeMove s).checkPending = s.checkPending := rfl
@[simp] theorem takeMove_cancelDue (s : State) : (takeMove s).cancelDue = s.cancelDue := rfl
@[simp] theorem takeMove_lineDue (s : State) : (takeMove s).lineDue = s.lineDue := rfl
@[simp] theorem takeMove_lc (s : State) : (takeMove s).lc = s.lc := rfl
@[simp] theorem takeMove_program (s : State) : (takeMove s).program = s.program := rfl
@[simp] theorem takeMove_hooks (s : State) : (takeMove s).hooks = s.hooks := rfl
@[simp] theorem takeMove_host (s : State) : (takeMove s).host = s.host.tail := rfl
@[simp] theorem fetchLine_takeMove (s : State) : fetchLine (takeMove s) = fetchLine s := rfl
@[simp] theorem progressDue_takeMove (s : State) : progressDue (takeMove s) = progressDue s := rfl

theorem takeMove_wait {s : State} {rest : List HostMove} (h : s.host = .wait :: rest) :
    takeMove s = { s with host := rest } := by
  simp only [takeMove, h, List.tail_cons]

theorem takeMove_nil {s : State} (h : s.host = []) : takeMove s = s := by
  cases s
  simp only at h
  subst h
  rfl

/-- Where the host makes no call the step is the scheduler's. -/
theorem step_quiet {s : State} (h : hostQuiet s) : step s = schedulerStep (takeMove s) := by
  rcases h with h | ⟨rest, h⟩
  · simp only [step, h, takeMove_nil h]
  · simp only [step, h, takeMove_wait h]

theorem lineDue_iff (s : State) : s.lineDue = true ↔ s.busy = true ∧ s.cancelDue = false := by
  simp [State.lineDue]

theorem cancelDue_iff (s : State) : s.cancelDue = true ↔ s.checkPending = true ∧ s.sched = .stopping := by
  simp [State.cancelDue]

theorem busy_of_cancelDue {s : State} (h : s.cancelDue = true) : s.busy = true :=
  (busy_iff s).mpr (.inr ((cancelDue_iff s).mp h).2)

/-- The scheduler's step while a line is due and left. -/
theorem schedulerStep_line {s : State} {line : Text} (hd : s.lineDue = true) (hf : fetchLine s = some line) :
    schedulerStep s = runLine line s := by
  obtain ⟨hb, hc⟩ := (lineDue_iff s).mp hd
  simp [schedulerStep, hb, hc, hf]

/-- The scheduler's step where a line is due and none is left. -/
theorem schedulerStep_end {s : State} (hd : s.lineDue = true) (hf : fetchLine s = none) :
    schedulerStep s = .next (endRun .haltedOk s) := by
  obtain ⟨hb, hc⟩ := (lineDue_iff s).mp hd
  simp [schedulerStep, hb, hc, hf]

/-- The boundary check that cancels the run (R185). -/
theorem schedulerStep_cancel {s : State} (hc : s.cancelDue = true) : schedulerStep s = .next (endRun .idle s) := by
  simp [schedulerStep, busy_of_cancelDue hc, hc, checkBoundary, ((cancelDue_iff s).mp hc).2]

/-- The scheduler's step outside a run. -/
theorem schedulerStep_rest {s : State} (hb : s.busy = false) : schedulerStep s = .next s := by
  simp [schedulerStep, hb]

/-- A line is fetched exactly while the cursor is inside the program. -/
theorem fetchLine_of_lt {s : State} (h : s.lc < s.program.length) : fetchLine s = some (s.program[s.lc]) :=
  List.getElem?_eq_getElem h

theorem lt_of_fetchLine {s : State} {line : Text} (h : fetchLine s = some line) : s.lc < s.program.length := by
  obtain ⟨h, _⟩ := List.getElem?_eq_some_iff.mp h
  exact h

/-- What a step of a run in progress can do where the host makes no call: make the boundary check that cancels the
run, process the line at the cursor, or end the run because no line is left. -/
theorem step_quiet_cases {s : State} (hb : s.busy = true) (hq : hostQuiet s) :
    ∃ t, step s = .next t
      ∧ ((s.cancelDue = true ∧ t = endRun .idle (takeMove s))
        ∨ (s.lineDue = true ∧ s.lc < s.program.length ∧ Processed (takeMove s) t)
        ∨ (s.lineDue = true ∧ s.program.length ≤ s.lc ∧ t = endRun .haltedOk (takeMove s))) := by
  rw [step_quiet hq]
  cases hc : s.cancelDue with
  | true => exact ⟨_, schedulerStep_cancel (s := takeMove s) hc, .inl ⟨rfl, rfl⟩⟩
  | false =>
    have hd : s.lineDue = true := (lineDue_iff s).mpr ⟨hb, hc⟩
    cases hf : fetchLine (takeMove s) with
    | none =>
      exact ⟨_, schedulerStep_end (s := takeMove s) hd hf, .inr (.inr ⟨hd, List.getElem?_eq_none_iff.mp hf, rfl⟩)⟩
    | some line =>
      rw [schedulerStep_line (s := takeMove s) hd hf]
      obtain ⟨t, ht, hp⟩ := runLine_cases line (takeMove s) hb
      exact ⟨t, ht, .inr (.inl ⟨hd, lt_of_fetchLine hf, hp⟩)⟩

/-! ### Several steps -/

/-- A machine that steps to `t` runs on from `t`. -/
theorem run_succ_of (M : Host.Core) {s t : M.State} (n : Nat) (h : M.step s = .next t) :
    M.run (n + 1) s = M.run n t := by
  rw [Host.Core.run.eq_2, h]

theorem run_succ {s t : State} (n : Nat) (h : step s = .next t) : core.run (n + 1) s = core.run n t :=
  run_succ_of core n h

theorem run_zero {s t : State} (h : core.run 0 s = .next t) : t = s := by
  have h' : Host.Outcome.next (φ := Fault) (ρ := Refusal) s = .next t := h
  injection h' with h'
  exact h'.symm

end Sys2Proof.Machine
end

