-- ==== Sys2Proof/Laws/Text.lean ====
section
/-! SUPPORT. The laws of the text decoder's parts: characters and letter case, trimming, tokens, literals, and the
encoder's lines taken apart. -/

namespace Sys2Proof

/-! ### Digits and literals (R80) -/

theorem hexChar_value {d : Nat} (h : d < 16) : hexValue (hexChar d) = some d := by
  interval_cases d <;> rfl

theorem parseDigits_append (value : Char → Option Nat) (base : Nat) (a b : Text) (acc : Nat) :
    parseDigits value base acc (a ++ b) = (parseDigits value base acc a).bind (fun n => parseDigits value base n b) := by
  induction a generalizing acc with
  | nil => rfl
  | cons c cs ih =>
    simp only [List.cons_append, parseDigits]
    split
    · exact ih _
    · rfl

theorem parseDigits_hexDigits (fuel n : Nat) (h : n < 16 ^ (fuel + 1)) :
    parseDigits hexValue 16 0 (hexDigits fuel n) = some n := by
  induction fuel generalizing n with
  | zero =>
    have hn : n < 16 := by simpa using h
    simp [hexDigits, parseDigits, Nat.mod_eq_of_lt hn, hexChar_value hn]
  | succ fuel ih =>
    unfold hexDigits
    split
    · next hn => simp [parseDigits, hexChar_value hn]
    · have h1 : n / 16 < 16 ^ (fuel + 1) := by
        rw [Nat.div_lt_iff_lt_mul (by decide)]
        simpa [Nat.pow_succ] using h
      rw [parseDigits_append, ih _ h1]
      simp only [Option.bind_some, parseDigits, hexChar_value (Nat.mod_lt n (by decide))]
      congr 1
      omega

theorem hexDigits_ne_nil (fuel n : Nat) : hexDigits fuel n ≠ [] := by
  cases fuel with
  | zero => simp [hexDigits]
  | succ fuel =>
    unfold hexDigits
    split <;> simp

theorem log2_fuel (n : Nat) : n < 16 ^ (n.log2 + 1) := by
  have h1 : n < 2 ^ (n.log2 + 1) := Nat.lt_log2_self
  have h2 : (2 : Nat) ^ (n.log2 + 1) ≤ 16 ^ (n.log2 + 1) := Nat.pow_le_pow_left (by decide) _
  omega

theorem parseMagnitude_hexText (n : Nat) : parseMagnitude (hexText n) = some n := by
  simp [parseMagnitude, hexText, hexMarked, hexDigits_ne_nil, parseDigits_hexDigits _ _ (log2_fuel n)]

theorem parseLiteral_hexText (n : Nat) : parseLiteral (hexText n) = some (n : Int) := by
  have h := parseMagnitude_hexText n
  unfold hexText at h ⊢
  simp [parseLiteral, h]

theorem parseLiteral_literalText (v : Int) : parseLiteral (literalText v) = some v := by
  unfold literalText
  split
  · simp only [parseLiteral, if_true, parseMagnitude_hexText]
    exact congrArg some (show -(v.natAbs : Int) = v by omega)
  · rw [parseLiteral_hexText, Option.some.injEq]
    omega

/-! ### Tokens (R73, R76) -/

/-- A character that a token of the encoder may hold: no whitespace, no comma, no semicolon, no colon. -/
def isPlain (c : Char) : Bool := !isSpace c && decide (c ≠ ',') && decide (c ≠ ';') && decide (c ≠ ':')

/-- A token of the encoder. -/
structure Token (t : Text) : Prop where
  nonempty : t ≠ []
  plain : ∀ c ∈ t, isPlain c = true

theorem isPlain_iff (c : Char) : isPlain c = true ↔ isSpace c = false ∧ c ≠ ',' ∧ c ≠ ';' ∧ c ≠ ':' := by
  simp [isPlain, and_assoc]

theorem hexChar_plain {d : Nat} (h : d < 16) : isPlain (hexChar d) = true := by
  interval_cases d <;> decide

theorem hexDigits_plain (fuel n : Nat) : ∀ c ∈ hexDigits fuel n, isPlain c = true := by
  induction fuel generalizing n with
  | zero =>
    intro c hc
    simp only [hexDigits, List.mem_singleton] at hc
    exact hc ▸ hexChar_plain (Nat.mod_lt n (by decide))
  | succ fuel ih =>
    intro c hc
    unfold hexDigits at hc
    split at hc
    · next hn =>
      simp only [List.mem_singleton] at hc
      exact hc ▸ hexChar_plain hn
    · rcases List.mem_append.mp hc with hc | hc
      · exact ih _ c hc
      · simp only [List.mem_singleton] at hc
        exact hc ▸ hexChar_plain (Nat.mod_lt n (by decide))

theorem token_cons {c : Char} {t : Text} (hc : isPlain c = true) (ht : ∀ d ∈ t, isPlain d = true) : Token (c :: t) where
  nonempty := by simp
  plain := by
    intro d hd
    rcases List.mem_cons.mp hd with h | h
    · exact h ▸ hc
    · exact ht d h

theorem token_hexText (n : Nat) : Token (hexText n) :=
  token_cons (by decide) (token_cons (by decide) (hexDigits_plain _ _)).plain

theorem token_literalText (v : Int) : Token (literalText v) := by
  unfold literalText
  split
  · exact token_cons (by decide) (token_hexText _).plain
  · exact token_hexText _

theorem token_memoryText (a : Int) : Token (memoryText a) := by
  refine token_cons (by decide) ?_
  intro c hc
  rcases List.mem_append.mp hc with h | h
  · exact (token_literalText a).plain c h
  · simp only [List.mem_singleton] at h
    exact h ▸ by decide

theorem token_of_all {t : Text} (h : t ≠ []) (ha : t.all isPlain = true) : Token t where
  nonempty := h
  plain := by simpa using ha

theorem token_reg (r : Reg) : Token r.name := by
  cases r <;> exact token_of_all (by simp [Reg.name]) rfl

theorem token_op (o : Op) : Token o.name := by
  cases o <;> exact token_of_all (by simp [Op.name]) rfl

/-! ### Trimming (R70) -/

theorem dropWhile_of_head {p : Char → Bool} {c : Char} {t : Text} (h : p c = false) :
    (c :: t).dropWhile p = c :: t := by
  simp [h]

/-- A text that begins and ends with no whitespace is trimmed already. -/
theorem trim_of_ends {t : Text} (h1 : ∀ c, t.head? = some c → isSpace c = false)
    (h2 : ∀ c, t.getLast? = some c → isSpace c = false) : trim t = t := by
  unfold trim
  cases t with
  | nil => rfl
  | cons c cs =>
    rw [dropWhile_of_head (h1 c rfl)]
    have hr : (c :: cs).reverse ≠ [] := by simp
    obtain ⟨d, ds, hd⟩ := List.exists_cons_of_ne_nil hr
    have hl : (c :: cs).getLast? = some d := by
      rw [← List.head?_reverse, hd]
      rfl
    rw [hd, dropWhile_of_head (h2 d hl), ← hd, List.reverse_reverse]

/-- A text of which the first character and the last one belong to tokens. -/
theorem trim_between {t : Text} {a b u : Text} (ha : Token a) (hb : Token b) (h : t = a ++ u ++ b) : trim t = t := by
  have hna := ha.nonempty
  have hnb := hb.nonempty
  refine trim_of_ends (fun c hc => ?_) (fun c hc => ?_)
  · have : a.head? = some c := by
      obtain ⟨x, xs, rfl⟩ := List.exists_cons_of_ne_nil hna
      simpa [h] using hc
    exact ((isPlain_iff c).mp (ha.plain c (List.mem_of_mem_head? this))).1
  · have : b.getLast? = some c := by
      rw [h, List.getLast?_append_of_ne_nil _ hnb] at hc
      exact hc
    exact ((isPlain_iff c).mp (hb.plain c (List.mem_of_mem_getLast? this))).1

theorem trim_token {t : Text} (h : Token t) : trim t = t :=
  trim_of_ends (fun c hc => ((isPlain_iff c).mp (h.plain c (List.mem_of_mem_head? hc))).1)
    (fun c hc => ((isPlain_iff c).mp (h.plain c (List.mem_of_mem_getLast? hc))).1)

theorem Token.no_comma {t : Text} (h : Token t) : ',' ∉ t := fun hc => absurd (h.plain _ hc) (by decide)

theorem Token.no_semicolon {t : Text} (h : Token t) : ';' ∉ t := fun hc => absurd (h.plain _ hc) (by decide)

theorem Token.no_space {t : Text} (h : Token t) : ∀ c ∈ t, isSpace c = false :=
  fun c hc => ((isPlain_iff c).mp (h.plain c hc)).1

theorem Token.last {t : Text} (h : Token t) (u : Text) : (u ++ t).getLast? ≠ some ':' := by
  intro hc
  rw [List.getLast?_append_of_ne_nil _ h.nonempty] at hc
  exact absurd (h.plain _ (List.mem_of_mem_getLast? hc)) (by decide)

/-- A word up to the first space. -/
theorem takeWhile_word {a u : Text} (ha : ∀ c ∈ a, isSpace c = false) :
    (a ++ ' ' :: u).takeWhile (fun c => !isSpace c) = a := by
  rw [List.takeWhile_append_of_pos (by simpa using ha)]
  simp [isSpace]

theorem dropWhile_word {a u : Text} (ha : ∀ c ∈ a, isSpace c = false) :
    (a ++ ' ' :: u).dropWhile (fun c => !isSpace c) = ' ' :: u := by
  rw [List.dropWhile_append_of_pos (by simpa using ha)]
  simp [isSpace]

theorem trim_space (u : Text) : trim (' ' :: u) = trim u := by
  simp [trim, isSpace]

/-- A line without a comment that is trimmed already is its own stripped form (R71). -/
theorem stripLine_of {t : Text} (hs : ';' ∉ t) (ht : trim t = t) : stripLine t = t := by
  unfold stripLine
  rw [List.takeWhile_eq_self_iff.mpr (fun c hc => by
    have : c ≠ ';' := fun h => hs (h ▸ hc)
    simpa using this), ht]

/-- One operand that is a token. -/
theorem operandTokens_one {t : Text} (h : Token t) : operandTokens t = [t] := by
  rw [operandTokens, if_neg h.nonempty, cutAt_no_sep h.no_comma, List.map_singleton, trim_token h]

/-- Two operands that are tokens. -/
theorem operandTokens_two {a b : Text} (ha : Token a) (hb : Token b) :
    operandTokens (a ++ ',' :: ' ' :: b) = [a, b] := by
  have hb' : ',' ∉ ' ' :: b := by simpa using hb.no_comma
  rw [operandTokens, if_neg (by simp), cutAt_one_sep ha.no_comma hb']
  simp [trim_space, trim_token ha, trim_token hb]

theorem isIdentifier_op (o : Op) : isIdentifier o.name = true := by cases o <;> decide

theorem Token.isEmpty {t : Text} (h : Token t) : t.isEmpty = false := by
  cases t with
  | nil => exact absurd rfl h.nonempty
  | cons _ _ => rfl

theorem not_noOp {u t : Text} (h : Token t) : isNoOpLine (u ++ t) = false := by
  have h1 : (u ++ t).isEmpty = false := by
    have := h.nonempty
    cases u <;> cases t <;> simp_all
  rw [isNoOpLine, h1, Bool.false_or, decide_eq_false_iff_not]
  exact h.last u

/-- The decoding of a line of format F1S or F1D (R89). -/
theorem decodeLine_one (op : Op) {t : Text} (h : Token t) {i : Instr} (hr : decodeOperands op [t] = .ok i) :
    decodeLine (lineOne op t) = .instr i := by
  have hop := token_op op
  have hs : stripLine (lineOne op t) = lineOne op t := by
    refine stripLine_of ?_ (trim_between (u := [' ']) hop h (by simp [lineOne]))
    simp [lineOne, hop.no_semicolon, h.no_semicolon]
  have hn : isNoOpLine (lineOne op t) = false := by
    have := not_noOp (u := op.name ++ [' ']) h
    simpa [lineOne] using this
  have hw : opcodeWord (lineOne op t) = op.name := takeWhile_word hop.no_space
  have ho : operandText (lineOne op t) = t := by
    rw [operandText, lineOne, dropWhile_word hop.no_space, trim_space, trim_token h]
  simp only [decodeLine, hs, hn, Bool.false_eq_true, if_false, decodeInstruction, hw, ho, isIdentifier_op, if_true,
    parseOp_name, operandTokens_one h, List.any_cons, List.any_nil, h.isEmpty, Bool.or_false, hr]

/-- The decoding of a line of format F2 (R89). -/
theorem decodeLine_two (op : Op) {d t : Text} (hd : Token d) (h : Token t) {i : Instr}
    (hr : decodeOperands op [d, t] = .ok i) : decodeLine (lineTwo op d t) = .instr i := by
  have hop := token_op op
  have hs : stripLine (lineTwo op d t) = lineTwo op d t := by
    refine stripLine_of ?_ (trim_between (u := ' ' :: (d ++ [',', ' '])) hop h (by simp [lineTwo]))
    simp [lineTwo, hop.no_semicolon, h.no_semicolon, hd.no_semicolon]
  have hn : isNoOpLine (lineTwo op d t) = false := by
    have := not_noOp (u := op.name ++ ' ' :: (d ++ [',', ' '])) h
    simpa [lineTwo] using this
  have hw : opcodeWord (lineTwo op d t) = op.name := takeWhile_word hop.no_space
  have ho : operandText (lineTwo op d t) = d ++ ',' :: ' ' :: t := by
    rw [operandText, lineTwo, dropWhile_word hop.no_space, trim_space]
    exact trim_between (u := [',', ' ']) hd h (by simp)
  simp only [decodeLine, hs, hn, Bool.false_eq_true, if_false, decodeInstruction, hw, ho, isIdentifier_op, if_true,
    parseOp_name, operandTokens_two hd h, List.any_cons, List.any_nil, h.isEmpty, hd.isEmpty, Bool.or_false, hr]

/-! ### Operands of the encoder's lines (R81 to R84) -/

theorem memoryInner_reg (r : Reg) : memoryInner r.name = none := by cases r <;> rfl

theorem memoryInner_hexText (n : Nat) : memoryInner (hexText n) = none := by simp [memoryInner, hexText]

theorem memoryInner_memoryText (a : Int) : memoryInner (memoryText a) = some (literalText a) := by
  simp [memoryInner, memoryText, trim_token (token_literalText a)]

theorem parseReg_hexText (n : Nat) : parseReg (hexText n) = none := by
  rw [parseReg, List.find?_eq_none]
  intro r _
  cases r <;> simp [hexText, lower, Reg.name, lowerChar]

theorem resolveSrc_reg (r : Reg) : resolveSrc r.name = .ok (.reg r) := by
  simp only [resolveSrc, memoryInner_reg, parseReg_name]

theorem resolveDst_reg (r : Reg) : resolveDst r.name = .ok (.reg r) := by
  simp only [resolveDst, memoryInner_reg, parseReg_name]

theorem resolveSrc_memoryText (a : Int) : resolveSrc (memoryText a) = .ok (.mem a) := by
  simp only [resolveSrc, memoryInner_memoryText, parseLiteral_literalText]

theorem resolveDst_memoryText (a : Int) : resolveDst (memoryText a) = .ok (.mem a) := by
  simp only [resolveDst, memoryInner_memoryText, parseLiteral_literalText]

theorem wrap16_toNat (n : Word) : wrap16 (n.toNat : Int) = n := by
  simp [wrap16]

theorem resolveSrc_hexText (n : Word) : resolveSrc (hexText n.toNat) = .ok (.imm n) := by
  simp only [resolveSrc, memoryInner_hexText, parseReg_hexText, parseLiteral_hexText, wrap16_toNat]

/-! ### Letter case (R75, R79 to R81) -/

/-- What holds of the 26 upper-case letters, and of each character that is its own lower case, holds of all. -/
theorem lowerChar_cases {P : Char → Char → Prop} (same : ∀ c, P c c)
    (upper : ∀ n, 65 ≤ n → n ≤ 90 → P (Char.ofNat n) (Char.ofNat (n + 32))) (c : Char) : P c (lowerChar c) := by
  unfold lowerChar
  split
  · next h => simpa using upper c.toNat h.1 h.2
  · exact same c

theorem isSpace_lowerChar (c : Char) : isSpace (lowerChar c) = isSpace c :=
  lowerChar_cases (P := fun c d => isSpace d = isSpace c) (fun _ => rfl)
    (fun n _ _ => by interval_cases n <;> rfl) c

theorem hexValue_lowerChar (c : Char) : hexValue (lowerChar c) = hexValue c :=
  lowerChar_cases (P := fun c d => hexValue d = hexValue c) (fun _ => rfl)
    (fun n _ _ => by interval_cases n <;> rfl) c

theorem decValue_lowerChar (c : Char) : decValue (lowerChar c) = decValue c :=
  lowerChar_cases (P := fun c d => decValue d = decValue c) (fun _ => rfl)
    (fun n _ _ => by interval_cases n <;> rfl) c

theorem isIdentStart_lowerChar (c : Char) : isIdentStart (lowerChar c) = isIdentStart c :=
  lowerChar_cases (P := fun c d => isIdentStart d = isIdentStart c) (fun _ => rfl)
    (fun n _ _ => by interval_cases n <;> rfl) c

theorem lowerChar_idem (c : Char) : lowerChar (lowerChar c) = lowerChar c :=
  lowerChar_cases (P := fun c d => lowerChar d = d ∨ d = c) (fun _ => .inr rfl)
    (fun n _ _ => by interval_cases n <;> exact .inl rfl) c |>.elim id (fun h => by rw [h, h])

/-- A character that is no letter is the lower case of itself alone. -/
theorem lowerChar_eq_iff {k : Char} (hk : k.toNat < 65 ∨ 90 < k.toNat ∧ k.toNat < 97 ∨ 122 < k.toNat) (c : Char) :
    lowerChar c = k ↔ c = k := by
  refine lowerChar_cases (P := fun c d => d = k ↔ c = k) (fun _ => Iff.rfl) (fun n h1 h2 => ?_) c
  constructor
  · rintro rfl
    exfalso
    interval_cases n <;> revert hk <;> decide
  · rintro rfl
    exfalso
    interval_cases n <;> revert hk <;> decide

@[simp] theorem lower_lower (t : Text) : lower (lower t) = lower t := by
  simp [lower, lowerChar_idem]

end Sys2Proof
end

