-- ==== Sys2Proof/Tests/Slice0.lean ====
section
/-! SUPPORT. The model's own tests: words, lines and results taken from the spec (30_encoding.md R94, R97, R98;
95_test_vectors.md), and for every obligation with hypotheses a witness that meets them. -/

namespace Sys2Proof.Tests

open Sys2Proof Sys2Proof.Machine

/-! ### Well-formedness refuses what a DIW cannot carry (R98) -/

theorem test_wellFormed_refuses_load :
    (Instr.movRegMem .ax (-1)).wellFormed = false ∧ (Instr.movRegMem .ax 0x100001).wellFormed = false
      ∧ (Instr.movRegMem .ax 0xFFFFF).wellFormed = true ∧ (Instr.movRegMem .ax 0x100000).wellFormed = true := by
  decide

theorem test_wellFormed_refuses_store :
    (Instr.movMemReg (-1) .ax).wellFormed = false ∧ (Instr.movMemReg 0 .ax).wellFormed = true := by decide

theorem test_wellFormed_refuses_store_immediate :
    (Instr.movMemImm 0x100001 1).wellFormed = false ∧ (Instr.movMemImm 0 1).wellFormed = true := by decide

/-! ### One word for each constructor, written from R95 to R98 and 95_test_vectors.md section 2.1. The binary ones
follow the table's `encoding` bit by bit: op, dk, sk, dr, sr, zero and ao, addr, imm, zero. -/

theorem test_word_mov :
    decode 0b0000_01_01_0001_0000_000_0_00000000000000000000_0000000000000000_00000000
        = some (.movRegReg .bx .ax)
      ∧ decode 0b0000_01_10_0001_0000_000_0_00000000000000000000_0000000000001010_00000000
        = some (.movRegImm .bx 10) := by decide

theorem test_word_mov_memory :
    decode 0x0720000201000000 = some (.movRegMem .cx 0x201) ∧ decode 0x0900000200000000 = some (.movMemReg 0x200 .ax)
      ∧ decode 0x0A00000010001F00 = some (.movMemImm 16 0x1F)
      ∧ decode 0x07000FFFFF000000 = some (.movRegMem .ax 0xFFFFF)
      ∧ decode 0x0700100000000000 = some (.movRegMem .ax 0x100000) := by decide

theorem test_word_push :
    decode 0b0001_00_01_0000_1000_000_0_00000000000000000000_0000000000000000_00000000 = some (.pushReg .ip)
      ∧ decode 0x1200000000A55A00 = some (.pushImm 0xA55A) := by decide

theorem test_word_pop :
    decode 0b0010_01_00_0101_0000_000_0_00000000000000000000_0000000000000000_00000000 = some (.popReg .di) := by
  decide

theorem test_word_add :
    decode 0b0011_01_01_0000_0001_000_0_00000000000000000000_0000000000000000_00000000
        = some (.addRegReg .ax .bx)
      ∧ decode 0x3600000000000100 = some (.addRegImm .ax 1) := by decide

theorem test_word_sub :
    decode 0b0100_01_01_0100_0100_000_0_00000000000000000000_0000000000000000_00000000
        = some (.subRegReg .si .si)
      ∧ decode 0x4610000000800000 = some (.subRegImm .bx 0x8000) := by decide

theorem test_word_mul :
    decode 0b0101_00_01_0000_0000_000_0_00000000000000000000_0000000000000000_00000000 = some (.mulReg .ax)
      ∧ decode 0b0101_00_10_0000_0000_000_0_00000000000000000000_0000000000000111_00000000
        = some (.mulImm 7) := by decide

theorem test_word_div :
    decode 0b0110_00_01_0000_0010_000_0_00000000000000000000_0000000000000000_00000000 = some (.divReg .cx)
      ∧ decode 0x6200000000000000 = some (.divImm 0) := by decide

/-- Reserved words (R97): an opcode, a kind, a register number, and a must-be-zero bit out of range. -/
theorem test_word_reserved :
    decode 0x7500000000000000 = none ∧ decode 0x0F00000000000000 = none ∧ decode 0x0590000000000000 = none
      ∧ decode 0x0510000000000001 = none ∧ decode 0x0510200000000000 = none ∧ decode 0x0700100001000000 = none
      ∧ decode 0x1110000000000000 = none ∧ decode 0x2400000000000100 = none := by decide

/-! ### Lines (R94, and 95_test_vectors.md sections 2.1 and 2.9) -/

theorem test_line_mov :
    decodeLine "MOV BX,10 ; ten".toList = .instr (.movRegImm .bx 10)
      ∧ decodeLine "mov bx, ax".toList = .instr (.movRegReg .bx .ax)
      ∧ decodeLine "MOV AX, -1".toList = .instr (.movRegImm .ax 0xFFFF)
      ∧ decodeLine "mov si, 70000".toList = .instr (.movRegImm .si 0x1170) := by decide

theorem test_line_mov_memory :
    decodeLine "mov cx, [ 0x64 ]".toList = .instr (.movRegMem .cx 100)
      ∧ decodeLine "mov [100], bx".toList = .instr (.movMemReg 100 .bx)
      ∧ decodeLine "mov [ 16 ] , 0x1F".toList = .instr (.movMemImm 16 0x1F)
      ∧ decodeLine "mov ax, [0x100000]".toList = .instr (.movRegMem .ax 0x100000)
      ∧ decodeLine "mov ax, [-1]".toList = .instr (.movRegMem .ax (-1)) := by decide

theorem test_line_stack :
    decodeLine "push 0xA55A".toList = .instr (.pushImm 0xA55A) ∧ decodeLine "push sp".toList = .instr (.pushReg .sp)
      ∧ decodeLine "pop di".toList = .instr (.popReg .di) := by decide

theorem test_line_arithmetic :
    decodeLine "ADD ax, 65537".toList = .instr (.addRegImm .ax 1)
      ∧ decodeLine "add ax, bx".toList = .instr (.addRegReg .ax .bx)
      ∧ decodeLine "Sub SI, si".toList = .instr (.subRegReg .si .si)
      ∧ decodeLine "sub bx, 0x8000".toList = .instr (.subRegImm .bx 0x8000) := by decide

theorem test_line_mul_div :
    decodeLine "mul ax".toList = .instr (.mulReg .ax) ∧ decodeLine "mul 7".toList = .instr (.mulImm 7)
      ∧ decodeLine "div cx".toList = .instr (.divReg .cx) ∧ decodeLine "div 0".toList = .instr (.divImm 0) := by decide

theorem test_line_noOp :
    decodeLine [] = .noOp ∧ decodeLine "   ".toList = .noOp ∧ decodeLine "; only a comment".toList = .noOp
      ∧ decodeLine "Start: ; entry".toList = .noOp ∧ decodeLine "mov ax, 5:".toList = .noOp := by decide

theorem test_line_invalidFormat :
    decodeLine "start: mov ax, 1".toList = .failure .invalidInstructionFormat
      ∧ decodeLine "mov ax,".toList = .failure .invalidInstructionFormat
      ∧ decodeLine "push ax, bx".toList = .failure .invalidInstructionFormat
      ∧ decodeLine "foo: bar, ,".toList = .failure .invalidInstructionFormat := by decide

theorem test_line_opcode_and_count :
    decodeLine "jmp start".toList = .failure .unknownInstruction ∧ decodeLine "jmp".toList = .failure .unknownInstruction
      ∧ decodeLine "mov foo".toList = .failure .missingArguments
      ∧ decodeLine "push".toList = .failure .missingArguments := by decide

theorem test_line_unknownRegister :
    decodeLine "mov 5, ax".toList = .failure .unknownRegister ∧ decodeLine "mov al, 1".toList = .failure .unknownRegister
      ∧ decodeLine "pop [100]".toList = .failure .unknownRegister
      ∧ decodeLine "add [100], [200]".toList = .failure .unknownRegister
      ∧ decodeLine "mov foo, [bar]".toList = .failure .unknownRegister := by decide

theorem test_line_invalidOperand :
    decodeLine "mov ax, 0FFh".toList = .failure .invalidOperand
      ∧ decodeLine "mov ax, 12abc".toList = .failure .invalidOperand
      ∧ decodeLine "push [100]".toList = .failure .invalidOperand
      ∧ decodeLine "mov [100], [200]".toList = .failure .invalidOperand
      ∧ decodeLine "mov [0x100000], foo".toList = .failure .invalidOperand := by decide

theorem test_line_invalidAddress :
    decodeLine "mov ax, [bx]".toList = .failure .invalidAddress
      ∧ decodeLine "mul [xyz]".toList = .failure .invalidAddress
      ∧ decodeLine "add [100], [x]".toList = .failure .invalidAddress := by decide

/-- Lines break at LF; a CR is whitespace (R70). -/
theorem test_lines :
    (splitLines "mov ax, 1\r\n\npop bx".toList).map decodeLine
      = [.instr (.movRegImm .ax 1), .noOp, .instr (.popReg .bx)] := by decide

/-! ### The instructions, each for one step (95_test_vectors.md sections 2.2 to 2.8) -/

/-- The reset state with some registers set. -/
def withRegs (rs : List (Reg × Word)) : State := rs.foldl (fun s p => setRegister s p.1 (intOf p.2)) State.reset

/-- The reset state with some registers and bytes of memory set. -/
def withMem (rs : List (Reg × Word)) (m : Memory) : State := { withRegs rs with mem := m }

/-- What stays of a state after an instruction: some registers and the bytes of memory. -/
def seen (o : Host.Outcome State Fault Refusal) (rs : List Reg) : Option (List Word × Memory) :=
  match o with
  | .next t => some (rs.map (getRegister t), t.mem)
  | .fault _ => none
  | .refused _ => none

/-- The flags ZF SF CF OF PF AF DF after an instruction. -/
def flagsAfter (o : Host.Outcome State Fault Refusal) : Option (List Bool) :=
  match o with
  | .next t => some [t.flags.ZF, t.flags.SF, t.flags.CF, t.flags.OF, t.flags.PF, t.flags.AF, t.flags.DF]
  | .fault _ => none
  | .refused _ => none

theorem test_movRegReg : seen (exec (.movRegReg .bx .ax) (withRegs [(.ax, 0x8000)])) [.ax, .bx]
    = some ([0x8000, 0x8000], []) := by decide

theorem test_movRegImm : seen (exec (.movRegImm .ip 5) State.reset) [.ip, .ax] = some ([5, 0], []) := by decide

theorem test_movRegMem : seen (exec (.movRegMem .cx 0x201) (withMem [] [(0x200, 0xCD), (0x201, 0xAB)])) [.cx]
    = some ([0x00AB], [(0x200, 0xCD), (0x201, 0xAB)]) := by decide

theorem test_movMemReg : seen (exec (.movMemReg 0xFFFFE .ax) (withRegs [(.ax, 0xBEEF)])) [.ax]
    = some ([0xBEEF], [(0xFFFFE, 0xEF), (0xFFFFF, 0xBE)]) := by decide

theorem test_movMemImm : seen (exec (.movMemImm 16 0x1F) (withMem [] [(17, 7)])) [] = some ([], [(16, 0x1F)]) := by
  decide

theorem test_store_out_of_range : exec (.movMemReg 0xFFFFF .ax) (withRegs [(.ax, 0xBEEF)])
    = .next (raise .addressOutOfRange (withRegs [(.ax, 0xBEEF)])) := by rfl

/-- `push sp` pushes the old `sp` (D8). -/
theorem test_pushReg_sp : seen (exec (.pushReg .sp) State.reset) [.sp]
    = some ([0xFFEE], [(0xFFEE, 0xF0), (0xFFEF, 0xFF)]) := by decide

/-- The high byte goes to 0x10000 and does not wrap. -/
theorem test_pushImm_wrap : seen (exec (.pushImm 0xA55A) (withRegs [(.sp, 1)])) [.sp]
    = some ([0xFFFF], [(0xFFFF, 0x5A), (0x10000, 0xA5)]) := by decide

theorem test_popReg : seen (exec (.popReg .dx) (withMem [(.sp, 0xFFFF)] [(0xFFFF, 0x5A), (0x10000, 0xA5)])) [.dx, .sp]
    = some ([0xA55A, 1], [(0xFFFF, 0x5A), (0x10000, 0xA5)]) := by decide

/-- The popped word, plus 2 (R118 b). -/
theorem test_popReg_sp : seen (exec (.popReg .sp) (withMem [(.sp, 0xFFFF)] [(0xFFFF, 1)])) [.sp]
    = some ([3], [(0xFFFF, 1)]) := by decide

theorem test_addRegReg :
    seen (exec (.addRegReg .ax .bx) (withRegs [(.ax, 0x7FFF), (.bx, 1)])) [.ax, .bx] = some ([0x8000, 1], [])
      ∧ flagsAfter (exec (.addRegReg .ax .bx) (withRegs [(.ax, 0x7FFF), (.bx, 1)]))
        = some [false, true, false, true, true, false, false] := by decide

theorem test_addRegImm :
    seen (exec (.addRegImm .ax 0xFFFF) (withRegs [(.ax, 0xFFFF)])) [.ax] = some ([0xFFFE], [])
      ∧ flagsAfter (exec (.addRegImm .ax 0xFFFF) (withRegs [(.ax, 0xFFFF)]))
        = some [false, true, true, false, false, false, false] := by decide

theorem test_subRegReg :
    seen (exec (.subRegReg .ax .bx) (withRegs [(.ax, 0x7FFF), (.bx, 0xFFFF)])) [.ax] = some ([0x8000], [])
      ∧ flagsAfter (exec (.subRegReg .ax .bx) (withRegs [(.ax, 0x7FFF), (.bx, 0xFFFF)]))
        = some [false, true, true, true, true, false, false] := by decide

theorem test_subRegImm :
    seen (exec (.subRegImm .ax 1) (withRegs [(.ax, 0x8000)])) [.ax] = some ([0x7FFF], [])
      ∧ flagsAfter (exec (.subRegImm .ax 1) (withRegs [(.ax, 0x8000)]))
        = some [false, false, false, true, true, false, false] := by decide

/-- ZF stays 1 although the product is not 0 (program P2, line 6). -/
theorem test_mulReg :
    seen (exec (.mulReg .ax) (withRegs [(.ax, 300), (.dx, 0x1111)])) [.ax, .dx] = some ([0x5F90, 0x1111], [])
      ∧ flagsAfter (exec (.mulReg .ax) (setFlags (withRegs [(.ax, 300)])
          { Flags.reset with ZF := true, PF := true })) = some [true, false, true, true, true, false, false] := by
  decide

theorem test_mulImm :
    seen (exec (.mulImm 0x101) (withRegs [(.ax, 0xFF)])) [.ax] = some ([0xFFFF], [])
      ∧ flagsAfter (exec (.mulImm 0x101) (withRegs [(.ax, 0xFF)]))
        = some [false, false, false, false, false, false, false] := by decide

/-- The divisor is the old `dx` (R142). -/
theorem test_divReg : seen (exec (.divReg .dx) (withRegs [(.ax, 10), (.dx, 3)])) [.ax, .dx] = some ([3, 1], []) := by
  decide

theorem test_divImm :
    seen (exec (.divImm 7) (withRegs [(.ax, 100), (.dx, 0x1111)])) [.ax, .dx] = some ([14, 2], [])
      ∧ exec (.divImm 0) State.reset = .next (raise .divideByZero State.reset) := by
  exact ⟨by decide, rfl⟩

/-- Overlapping words (95_test_vectors.md section 2.8). -/
theorem test_overlapping_words :
    (Memory.setWord (Memory.setWord [] 0x10 0xABCD) 0x11 0x1234) = [(0x10, 0xCD), (0x11, 0x34), (0x12, 0x12)] := by
  decide

/-! ### Running -/

/-- The state in which a run of a program has just started. -/
def started (lines : List String) : State := loadProgram (lines.map String.toList) State.reset

/-- The sum 1 at the first step of a run, and the snapshot (R163, R191). -/
theorem test_step_instruction :
    (match step (started ["add ax, 1", "pop bx"]) with
      | .next t => decide (getRegister t .ax = 1 ∧ t.lc = 1 ∧ t.sched = .running
          ∧ certainCalls t.hooks = [.observed (snapshot t)])
      | .fault _ => false
      | .refused _ => false) = true := by decide

/-- Program P3 from its line 7: the failure is reported with the line number 7 (R181). -/
theorem test_step_failure :
    step { started ["", "", "", "", "", "", "div bx", "mov ax, 99"] with lc := 6 }
      = .next (raise .divideByZero { started ["", "", "", "", "", "", "div bx", "mov ax, 99"] with lc := 6 })
      ∧ (raise .divideByZero { started [] with lc := 6 }).hooks = [.error 7 .divideByZero] := by
  exact ⟨rfl, rfl⟩

/-- The state in which a run of 101 lines, in which a stop request is pending, stands at its batch boundary. -/
def atLine100 (checkPending : Bool) : State :=
  { started (List.replicate 101 "") with sched := .stopping, lc := 100, checkPending := checkPending }

/-- T-STOP-2 at its boundary, whichever the free value is: the cursor at 100, no line is due any more (R185). -/
theorem test_step_cancelled : (settleCursor (atLine100 false)).lineDue = false := by
  change (yieldAtBoundary (publishProgress (atLine100 false))).lineDue = false
  generalize hs : publishProgress (atLine100 false) = s
  have hs : s.sched = .stopping := by rw [← hs]; rfl
  unfold yieldAtBoundary
  split
  · next h => simp [State.lineDue, State.cancelDue, reachBoundary, h, hs]
  · simp [State.lineDue, State.busy, checkBoundary, hs]

/-- With the check still to come the run is cancelled and line 100 is not processed; without it line 100 is due
(R185, R186). -/
theorem test_step_stop_at_boundary :
    step (atLine100 true) = .next (endRun .idle (atLine100 true)) ∧ (atLine100 false).lineDue = true := ⟨rfl, rfl⟩

/-- A request made at the boundary (P7) leaves the run in progress: a second `run` is rejected, `reset()` is not
defined (R186, R187, R202). -/
theorem test_step_stopping :
    step { started [] with sched := .stopping, checkPending := true, host := [.run []] }
        = .next { started [] with sched := .stopping, checkPending := true }
      ∧ step { started [] with sched := .stopping, host := [.reset] } = .refused .resetDuringRun := ⟨rfl, rfl⟩

/-- The two moments inside `pop bx`: after the write of `bx` and after that of `sp` (R31, R117). -/
theorem test_moments :
    (match exec (.popReg .bx) (withMem [(.sp, 2)] [(2, 7)]) with
      | .next t => decide (t.moments = 2 ∧ t.hooks.map (fun h => match h with
          | .moment d v => some (d, v.regs.bx, v.regs.sp)
          | .memoryChanged _ _ => none
          | .observed _ => none
          | .progress _ _ => none
          | .error _ _ => none) = [some (0, 7, 2), some (1, 7, 4)])
      | .fault _ => false
      | .refused _ => false) = true := by decide

/-- T-STOP-3 at its end: the run completes before the request is seen (R186). -/
theorem test_step_completed :
    (settleCursor { started ["", ""] with sched := .stopping, lc := 2 }).sched = .haltedOk := by
  rfl

/-- The host's two questions, for `mov bx, 10` (log entry 11). -/
theorem test_table_word :
    decodeTableWord 64 0x0610000000000A00 = some (.movRegImm .bx 10) ∧ decodeTableWord 64 0x7000000000000000 = none
      ∧ (match step (State.reset.withFetchWord 64 0x0610000000000A00) with
        | .next t => decide (getRegister t .bx = 10 ∧ t.sched = .haltedOk)
        | .fault _ => false
        | .refused _ => false) = true := by decide

/-! ### Witnesses: hypotheses of the obligations that are met -/

theorem witness_WordOfInstructionDecodesToIt :
    Instr.WellFormed (.movRegMem .ip 0xFFFFF) ∧ Instr.WellFormed (.movMemReg 0 .ax)
      ∧ Instr.WellFormed (.movMemImm outsideAddr 0xFFFF) := by decide

theorem witness_DecodedWordIsTheInstructionsWord : decode 0x0700100000000000 = some (.movRegMem .ax outsideAddr) := by
  decide

theorem witness_ReservedWordsAreRefused :
    execWord 0x0590000000000000 State.reset = .refused .reservedWord
      ∧ Instr.WellFormed (.pushReg .sp) ∧ encode (.pushReg .sp) = 0x1106000000000000 := by
  exact ⟨rfl, by decide, by decide⟩

theorem witness_WordExecutesAsItsInstruction :
    decodeLine "mov ax, [-1]".toList = .instr (.movRegMem .ax (-1))
      ∧ decodeLine "mov ax, [1048577]".toList = .instr (.movRegMem .ax 0x100001)
      ∧ encode (.movRegMem .ax (-1)) = encode (.movRegMem .ax 0x100001) := by decide

theorem witness_CommentIsStripped :
    ';' ∉ "\tmov ax, 1 \r".toList ∧ stripLine "\tmov ax, 1 \r".toList = "mov ax, 1".toList := by decide

theorem witness_DecoderFailsWithSixKinds :
    decodeLine "mov ax,".toList = .failure .invalidInstructionFormat := by decide

theorem witness_UnknownOpcodeFails :
    isNoOpLine (stripLine "JMP start".toList) = false
      ∧ isIdentifier (opcodeWord (stripLine "JMP start".toList)) = true
      ∧ (∀ o : Op, lower (opcodeWord (stripLine "JMP start".toList)) ≠ o.name)
      ∧ isNoOpLine (stripLine "mov: ax".toList) = false
      ∧ isIdentifier (opcodeWord (stripLine "mov: ax".toList)) = false := by
  exact ⟨by decide, by decide, by intro o; cases o <;> decide, by decide, by decide⟩

theorem witness_SetRegisterThenGetRegister : Reg.bx ≠ Reg.ax := by decide

theorem witness_ParityOfTheLowByte : (0x1FE : Int) % 256 = 0xFE % 256 := by decide

theorem witness_word_addresses :
    ((0 : Int) ≤ 0 ∧ (0 : Int) ≤ 0xFFFFE) ∧ ((0 : Int) ≤ 0xFFFFE ∧ (0xFFFFE : Int) ≤ 0xFFFFE)
      ∧ ¬ ((0 : Int) ≤ -1 ∧ (-1 : Int) ≤ 0xFFFFE) ∧ ¬ ((0 : Int) ≤ 0xFFFFF ∧ (0xFFFFF : Int) ≤ 0xFFFFE) := by decide

/-- `ReadWordIsTwoBytes`, `WordWriteTouchesTwoBytes`, `LoadCompletes`, `StoreCompletes` and `MovOutOfRangeFails` at
the first and the last address inside and the nearest outside (the addresses of `witness_word_addresses`). -/
theorem witness_ReadWordIsTwoBytes :
    readWord (withMem [] [(0xFFFFE, 0xEF), (0xFFFFF, 0xBE)]) 0xFFFFE = .ok 0xBEEF
      ∧ readWord State.reset 0 = .ok 0 ∧ readWord State.reset (-1) = .error .addressOutOfRange
      ∧ readWord State.reset 0xFFFFF = .error .addressOutOfRange := by decide

/-- `WrittenWordReadsBack`: its neighbour above exists at 0xFFFFD and not at 0xFFFFE, the one below at 1 and not
at 0. -/
theorem witness_WrittenWordReadsBack :
    ((0xFFFFD : Int) + 1 ≤ 0xFFFFE) ∧ ¬ ((0xFFFFE : Int) + 1 ≤ 0xFFFFE) ∧ ((0 : Int) ≤ 1 - 1) ∧ ¬ ((0 : Int) ≤ 0 - 1) := by
  decide

theorem witness_WordWriteTouchesTwoBytes :
    ∃ t u, writeWord State.reset 0 (-1) = .ok t ∧ writeWord State.reset 0xFFFFE 1 = .ok u
      ∧ writeWord State.reset (-1) 0 = .error .addressOutOfRange
      ∧ writeWord State.reset 0xFFFFF 0 = .error .addressOutOfRange :=
  ⟨_, _, rfl, rfl, rfl, rfl⟩

theorem witness_AluAddition :
    (aluAdd 0xFFFE 1).raw ≤ 65535 ∧ (aluAdd 0xFFFF 0).raw ≤ 65535 ∧ 65535 < (aluAdd 0xFFFF 1).raw := by decide

theorem witness_AluSubtraction :
    0 ≤ (aluSub 1 1).raw ∧ (aluSub 0 1).raw < 0 ∧ (aluSub 0 0xFFFF).raw < 0 := by decide

theorem witness_AluDivision : (1 : Word) ≠ 0 ∧ (0xFFFF : Word) ≠ 0 := by decide

theorem witness_LoadCompletes :
    seen (exec (.movRegMem .ax 0) State.reset) [.ax] = some ([0], [])
      ∧ seen (exec (.movRegMem .sp 0xFFFFE) State.reset) [.sp] = some ([0], []) := by decide

theorem witness_StoreCompletes :
    seen (exec (.movMemReg 0 .sp) State.reset) [] = some ([], [(0, 0xF0), (1, 0xFF)])
      ∧ seen (exec (.movMemImm 0xFFFFE 0xBEEF) State.reset) [] = some ([], [(0xFFFFE, 0xEF), (0xFFFFF, 0xBE)]) := by
  decide

theorem witness_MovOutOfRangeFails :
    exec (.movRegMem .ax (-1)) State.reset = .next (raise .addressOutOfRange State.reset)
      ∧ exec (.movMemImm 0xFFFFF 1) State.reset = .next (raise .addressOutOfRange State.reset) :=
  ⟨rfl, rfl⟩

/-- Both cases of `PopCompletes`. -/
theorem witness_PopCompletes : Reg.ip ≠ Reg.sp ∧ Reg.sp = Reg.sp := by decide

theorem witness_PushThenPopMovesTheValue : Reg.ax ≠ Reg.sp ∧ Reg.bx ≠ Reg.sp := by decide

theorem witness_DivCompletes : getRegister (withRegs [(.cx, 1)]) .cx ≠ 0 ∧ (0xFFFF : Word) ≠ 0 := by decide

theorem witness_DivideByZeroFails : getRegister State.reset .bx = 0 := by decide

theorem witness_FailingInstructionChangesNothing :
    State.reset.sched ≠ .haltedError
      ∧ exec (.divImm 0) State.reset = .next (raise .divideByZero State.reset)
      ∧ (raise .divideByZero State.reset).sched = .haltedError
      ∧ exec (.movRegMem .ax 0xFFFFF) State.reset = .next (raise .addressOutOfRange State.reset) :=
  ⟨by decide, rfl, rfl, rfl⟩

/-- `RegisterWriteTable`, with `ip` not in the row and with `ip` in it. -/
theorem witness_RegisterWriteTable :
    (∃ t, exec (.popReg .ax) State.reset = .next t) ∧ (∃ t, exec (.movRegImm .ip 5) State.reset = .next t)
      ∧ Reg.ip ∉ Instr.writes (.popReg .ax) ∧ Reg.ip ∈ Instr.writes (.movRegImm .ip 5) :=
  ⟨⟨_, rfl⟩, ⟨_, rfl⟩, by decide, by decide⟩

/-- Two states that differ in a register and a flag which `mul bx` does not read. -/
theorem witness_RegisterReadTable :
    let s := { withRegs [(.dx, 7)] with sched := .running }
    let s' := setFlags { withRegs [(.cx, 9)] with sched := .running } { Flags.reset with CF := true }
    s ≠ s' ∧ s.sched = .running ∧ s'.sched = .running ∧ s.mem = s'.mem
      ∧ (∀ q ∈ Instr.reads (.mulReg .bx), getRegister s q = getRegister s' q)
      ∧ (∃ t, exec (.mulReg .bx) s = .next t) ∧ ∃ t, exec (.mulReg .bx) s' = .next t :=
  ⟨by decide, by decide, by decide, by decide, by decide, ⟨_, rfl⟩, ⟨_, rfl⟩⟩

theorem witness_FlagWriteTable :
    (∃ t, exec (.divImm 1) State.reset = .next t) ∧ Instr.flagRow (.divImm 1) = .none
      ∧ (∃ t, exec (.mulImm 1) State.reset = .next t) ∧ Instr.flagRow (.mulImm 1) = .carryOverflow
      ∧ (∃ t, exec (.subRegReg .ax .bx) State.reset = .next t) ∧ Instr.flagRow (.subRegReg .ax .bx) = .all :=
  ⟨⟨_, rfl⟩, by decide, ⟨_, rfl⟩, by decide, ⟨_, rfl⟩, by decide⟩

theorem witness_MemoryWriteTable :
    (∃ t, exec (.popReg .ax) State.reset = .next t) ∧ Instr.stores (.popReg .ax) = false := ⟨⟨_, rfl⟩, by decide⟩

theorem witness_InstructionsDoNotSequence :
    ∃ t, exec (.popReg .ip) (started ["pop ip"]) = .next t ∧ t.sched ≠ .haltedError := ⟨_, rfl, by decide⟩

theorem witness_StepRunsTheDecodedInstruction :
    let s := started ["pop ip"]
    s.lineDue = true ∧ hostQuiet s ∧ fetchLine s = some "pop ip".toList
      ∧ decodeLine "pop ip".toList = .instr (.popReg .ip)
      ∧ (∃ t, exec (.popReg .ip) (takeMove s) = .next t ∧ t.sched ≠ .haltedError)
      ∧ ∃ t, exec (.divImm 0) (takeMove s) = .next t ∧ t.sched = .haltedError :=
  ⟨by decide, .inl rfl, by decide, by decide, ⟨_, rfl, by decide⟩, ⟨_, rfl, by decide⟩⟩

/-- The ends of a line, each with a no-op line: the last line, a boundary with a request, a boundary without one,
inside a batch, and the last line that is also a boundary with a request. -/
theorem witness_ProcessedLineMovesOn :
    let p := started (List.replicate 101 "")
    let q := { started (List.replicate 100 "") with lc := 99, sched := .stopping }
    (started [""]).lineDue = true ∧ hostQuiet (started [""]) ∧ fetchLine (started [""]) = some []
      ∧ decodeLine [] = .noOp ∧ (started [""]).program.length ≤ (started [""]).lc + 1
      ∧ p.lineDue = true ∧ hostQuiet p ∧ p.lc + 1 < p.program.length ∧ (99 + 1) % 100 = 0 ∧ 99 + 1 < p.program.length
      ∧ { p with lc := 99, sched := .stopping }.lineDue = true
      ∧ fetchLine { p with lc := 99, sched := .stopping } = some [] ∧ fetchLine { p with lc := 99 } = some []
      ∧ fetchLine p = some [] ∧ (p.lc + 1) % 100 ≠ 0
      ∧ q.lineDue = true ∧ hostQuiet q ∧ fetchLine q = some [] ∧ q.lc + 1 = 100 ∧ q.program.length = 100 :=
  ⟨by decide, .inl rfl, by decide, by decide, by decide, by decide, .inl rfl, by decide, by decide, by decide, by decide,
    by decide, by decide, by decide, by decide, by decide, .inl rfl, by decide, by decide, by decide⟩

/-- The other case: an instruction that has not failed. -/
theorem witness_ProcessedLineMovesOn_instruction :
    let s := started ["pop ip", "mul 2"]
    s.lineDue = true ∧ hostQuiet s ∧ fetchLine s = some "pop ip".toList
      ∧ ∃ i t p, decodeLine "pop ip".toList = .instr i ∧ exec i (takeMove s) = .next t ∧ t.sched ≠ .haltedError
          ∧ p = publishSnapshot t :=
  ⟨by decide, .inl rfl, by decide, .popReg .ip, _, _, by decide, rfl, by decide, rfl⟩

/-- Inside a batch, at the end of the program, and at the end of a batch. -/
theorem witness_NoOpLineOnlyMovesTheCursor :
    let s := { started ["init: ; label", "pop ax"] with host := [.wait, .stop] }
    let u := started ["init: ; label"]
    let v := { started (List.replicate 101 "") with lc := 99 }
    (s.lineDue = true ∧ hostQuiet s ∧ fetchLine s = some "init: ; label".toList
        ∧ decodeLine "init: ; label".toList = .noOp
        ∧ ¬ ((s.lc + 1) % 100 = 0 ∨ s.lc + 1 = s.program.length))
      ∧ (u.lineDue = true ∧ hostQuiet u ∧ fetchLine u = some "init: ; label".toList ∧ u.lc + 1 = u.program.length)
      ∧ (v.lineDue = true ∧ hostQuiet v ∧ fetchLine v = some [] ∧ decodeLine [] = .noOp ∧ (v.lc + 1) % 100 = 0) :=
  ⟨⟨by decide, .inr ⟨_, rfl⟩, by decide, by decide, by decide⟩, ⟨by decide, .inl rfl, by decide, by decide⟩,
    ⟨by decide, .inl rfl, by decide, by decide, by decide⟩⟩

theorem witness_IllegalLineHalts :
    let s := started ["jnz loop"]
    s.lineDue = true ∧ hostQuiet s ∧ fetchLine s = some "jnz loop".toList
      ∧ decodeLine "jnz loop".toList = .failure .unknownInstruction :=
  ⟨by decide, .inl rfl, by decide, by decide⟩

theorem witness_FailureHaltsForGood : State.reset.host = [] := rfl

theorem witness_RunStartsFromTheResetState :
    let s := { withRegs [(.ax, 10)] with sched := .haltedError, host := [.run "mov bx, 1".toList] }
    s.busy = false ∧ s.host = .run "mov bx, 1".toList :: [] := by decide

theorem witness_RunWhileRunningIsRejected :
    let s := { started ["pop ax"] with sched := .stopping, host := [.run [], .wait] }
    s.busy = true ∧ s.host = .run [] :: [.wait] := by decide

theorem witness_ResetCallRestoresTheStores :
    let s := { withRegs [(.ax, 10)] with sched := .haltedOk, host := [.reset] }
    s.busy = false ∧ s.host = .reset :: [] := by decide

/-- Outside a run, inside a batch, at a boundary with the check past and with the check to come; and the check. -/
theorem witness_StopCallRecordsTheRequest :
    let s := { State.reset with host := [.stop] }
    let t := { started (List.replicate 101 "") with host := [.stop], lc := 1 }
    let u := { started (List.replicate 101 "") with host := [.stop], lc := 100 }
    let v := { u with checkPending := true }
    let w := { v with sched := .stopping, host := [.wait] }
    (s.host = .stop :: [] ∧ s.sched ≠ .running) ∧ (t.host = .stop :: [] ∧ t.sched = .running)
      ∧ (u.host = .stop :: [] ∧ u.sched = .running ∧ u.checkPending = false)
      ∧ (v.host = .stop :: [] ∧ v.sched = .running ∧ v.checkPending = true)
      ∧ (w.sched = .stopping ∧ w.checkPending = true ∧ hostQuiet w) :=
  ⟨by decide, by decide, by decide, by decide, ⟨by decide, by decide, .inr ⟨_, rfl⟩⟩⟩

theorem inv_started_two (lc : Nat) (h : lc < 2) (m : List HostMove) :
    State.Inv { started ["", "pop ax"] with lc := lc, host := m } where
  memory := rfl
  auxiliary := rfl
  direction := rfl
  cursor := fun _ => h
  labels := fun _ => rfl
  discarded := fun h => by simp [State.busy, started] at h
  check := fun h => by simp [started] at h
  errors := rfl

/-- The step: the last line before the boundary 100, an instruction that fails there, one before it, and the boundary
itself with the check to come. The run: a request inside a batch, one before the last line of a batch, and one at
the boundary 0. -/
theorem witness_StopBoundsTheRun :
    let p := started (List.replicate 101 "div 0")
    (stopsBefore 100 { p with lc := 99, sched := .stopping } ∧ hostQuiet p ∧ 100 % 100 = 0
        ∧ stopsBefore 100 { p with lc := 98, sched := .stopping } ∧ decodeLine "div 0".toList = .instr (.divImm 0)
        ∧ stopsBefore 100 { p with lc := 100, sched := .stopping, checkPending := true })
      ∧ (∃ t, core.run 2 { p with lc := 1, host := [.stop, .wait] } = .next t)
      ∧ (∃ t, core.run 1 { p with lc := 99, host := [.stop] } = .next t)
      ∧ (∃ t, core.run 1 { p with lc := 0, host := [.stop] } = .next t)
      ∧ p.sched = .running ∧ ∀ m ∈ [HostMove.wait], m = .wait :=
  ⟨⟨⟨rfl, .inl (by decide)⟩, .inl rfl, by decide, ⟨rfl, .inl (by decide)⟩, by decide, ⟨rfl, .inr ⟨rfl, rfl⟩⟩⟩,
    ⟨_, rfl⟩, ⟨_, rfl⟩, ⟨_, rfl⟩, rfl, by decide⟩

/-- The step, with a host that waits, and the run. -/
theorem witness_EveryRunTerminates :
    let s := { started ["", "pop ax"] with lc := 0, host := [] }
    let u := { started ["", "pop ax"] with lc := 1, host := [.wait, .stop] }
    (u.busy = true ∧ hostQuiet u) ∧ s.Inv ∧ s.busy = true ∧ s.host = [] :=
  ⟨⟨rfl, .inr ⟨_, rfl⟩⟩, inv_started_two 0 (by decide) _, rfl, rfl⟩

theorem witness_ProgramIsFixedDuringARun :
    ∃ t, (started ["", "pop ax"]).busy = true ∧ step (started ["", "pop ax"]) = .next t ∧ t.busy = true :=
  ⟨_, rfl, rfl, by decide⟩

/-- The refused call while Running and while Stopping, and three steps that are not it. -/
theorem witness_StepRefusesOnlyResetDuringARun :
    let s := { started ["pop ax"] with host := [.reset] }
    let u := { s with sched := .stopping }
    let v := { State.reset with host := [.reset] }
    (s.busy = true ∧ s.host = .reset :: []) ∧ (u.busy = true ∧ u.host = .reset :: [])
      ∧ ¬ (State.reset.busy = true ∧ ∃ rest, State.reset.host = .reset :: rest)
      ∧ ¬ (v.busy = true ∧ ∃ rest, v.host = .reset :: rest)
      ∧ ¬ ((started ["pop ax"]).busy = true ∧ ∃ rest, (started ["pop ax"]).host = .reset :: rest) :=
  ⟨by decide, by decide, fun h => absurd h.1 (by decide), fun h => absurd h.1 (by decide),
    by rintro ⟨-, rest, hr⟩; cases hr⟩

theorem witness_StepKeepsTheInvariant :
    let s := { started ["", "pop ax"] with lc := 1, host := [] }
    s.Inv ∧ ∃ t, step s = .next t := ⟨inv_started_two 1 (by decide) _, ⟨_, rfl⟩⟩

theorem witness_PlacedWordIsTheNextInstruction : decode 0x6200000000000000 = some (.divImm 0) := by decide

/-- `ResetValues` at the first and the last cell. -/
theorem witness_ResetValues :
    ((0 : Int) ≤ 0 ∧ (0 : Int) ≤ 0xFFFFF) ∧ ((0 : Int) ≤ 0xFFFFF ∧ (0xFFFFF : Int) ≤ 0xFFFFF) ∧ Reg.ip ≠ Reg.sp := by
  decide

end Sys2Proof.Tests
end

