-- ==== Sys2Proof/Proofs/Wrap.lean ====
section
/-! The wrap law of 00_scope.md (R7): adding the modulus to a remainder and taking the remainder again gives the floor
remainder, whichever of the two remainders the inner one is. -/

namespace Sys2Proof

/-- The floor remainder is not moved by the outer correction. -/
theorem emod_add_self_emod (v m : Int) : (v.emod m + m).emod m = v % m :=
  calc (v % m + m) % m = v % m % m := Int.add_emod_right ..
    _ = v % m := Int.emod_emod ..

/-- The outer correction makes the truncating remainder agree with the floor one: it is above `-m`, so the corrected
value is not negative, where the two remainders are the same. -/
theorem tmod_add_self_tmod (v : Int) {m : Int} (hm : 0 < m) : (v.tmod m + m).tmod m = v % m := by
  have hlow : -m < v.tmod m := Int.lt_tmod_of_pos v hm
  calc (v.tmod m + m).tmod m = (v.tmod m + m) % m := Int.tmod_eq_emod_of_nonneg (by omega)
    _ = v.tmod m % m := Int.add_emod_right ..
    _ = (v - m * v.tdiv m) % m := by rw [Int.tmod_def]
    _ = v % m := Int.sub_mul_emod_self_left ..

/-- Settles O12: both corrected remainders are the floor remainder, which is what `wrap16` stores. -/
theorem wrapLaw : Obligations.WrapLaw := by
  intro v
  have hwrap : ((wrap16 v).toNat : Int) = v % 65536 := intOf_wrap16 v
  exact ⟨hwrap.trans (emod_add_self_emod v 65536).symm, hwrap.trans (tmod_add_self_tmod v (by decide)).symm⟩

end Sys2Proof
end

