-- ==== Sys2Proof/Proofs/RegisterFile.lean ====
section
/-! The Register File's law of 10_state.md (R12): a read after a write, and the frame of the write. -/

namespace Sys2Proof

open Machine

/-- Settles O13: a read after the write sees the wrapped value in the register written and the old value in any
other; the frame holds because the registers are the one field the write touches. -/
theorem setRegisterThenGetRegister : Obligations.SetRegisterThenGetRegister := by
  intro s r v
  refine ⟨?same, fun q hq => ?other, rfl⟩
  case same => rw [getRegister_setRegister, if_pos rfl]
  case other => rw [getRegister_setRegister, if_neg hq]

end Sys2Proof
end

