-- ==== Sys2Proof/Proofs/FlagUnit.lean ====
section
/-! The Flag Unit's folding rule of 10_state.md (R24, R25). The parity flag is about the number of ones in the low byte,
and the low byte of a wrapped result depends on the result modulo 256 only. -/

namespace Sys2Proof

open Machine

/-! ### The number of ones of the low byte -/

theorem popcount_le (b : Byte) : popcount b ≤ 8 := by
  simpa only [popcount, List.length_range] using List.countP_le_length (l := List.range 8)

/-- The ones of the low byte are those of the word's bits 7 to 0. -/
theorem popcount_lowByte (v : Word) : popcount (lowByte v) = (List.range 8).countP (fun i => v.getLsbD i) := by
  refine List.countP_congr fun i hi => ?_
  have hi8 : i < 8 := List.mem_range.mp hi
  simp [lowByte, hi8]

/-- The low byte of a wrapped integer depends on the integer modulo 256 only. -/
theorem lowByte_wrap16_congr {a b : Int} (h : a % 256 = b % 256) : lowByte (wrap16 a) = lowByte (wrap16 b) := by
  have ha := intOf_wrap16 a
  have hb := intOf_wrap16 b
  apply BitVec.eq_of_toNat_eq
  rw [lowByte_toNat, lowByte_toNat]
  simp only [intOf] at ha hb
  omega

/-! ### The parity flag -/

theorem foldFlags_PF (f : Flags) (v : Int) (c o : Bool) :
    (foldFlags f v c o).PF = decide (popcount (lowByte (wrap16 v)) % 2 = 0) := rfl

theorem foldFlags_PF_eq_true_iff (f : Flags) (v : Int) (c o : Bool) :
    (foldFlags f v c o).PF = true ↔ popcount (lowByte (wrap16 v)) % 2 = 0 := by
  rw [foldFlags_PF, decide_eq_true_iff]

theorem foldFlags_PF_eq_false_iff (f : Flags) (v : Int) (c o : Bool) :
    (foldFlags f v c o).PF = false ↔ popcount (lowByte (wrap16 v)) % 2 = 1 := by
  rw [foldFlags_PF, decide_eq_false_iff_not, Nat.mod_two_not_eq_zero]

/-- Settles O15: a byte holds at most eight ones, so the listed counts are the even and the odd ones. -/
theorem parityOfTheLowByte : Obligations.ParityOfTheLowByte := by
  refine ⟨fun f v c o => ?counts, fun f v w c o h => ?lowByteOnly, fun f c o => ?examples⟩
  case counts =>
    have hle := popcount_le (lowByte (wrap16 v))
    simp only [foldFlags_PF_eq_true_iff, foldFlags_PF_eq_false_iff, ← popcount_lowByte]
    constructor <;> omega
  case lowByteOnly => rw [foldFlags_PF, foldFlags_PF, lowByte_wrap16_congr h]
  case examples =>
    simp only [foldFlags_PF]
    decide

/-- Settles O14: each output is the fold's own, with ZF read as a number and PF as the ones of bits 7 to 0. -/
theorem updateFlagsFoldsTheResult : Obligations.UpdateFlagsFoldsTheResult := by
  intro s result carry overflow
  refine ⟨?zero, rfl, rfl, rfl, ?parity, rfl, rfl, rfl⟩
  case zero => exact decide_eq_decide.mpr BitVec.toNat_inj.symm
  case parity => rw [updateFlags_flags, foldFlags_PF, popcount_lowByte]

end Sys2Proof
end

