-- ==== Sys2Proof/Proofs/Comments.lean ====
section
/-! The comment rule of 30_encoding.md (R71): the stripped line looks at nothing from the first semicolon on, and the
decoder looks at nothing but the stripped line. -/

namespace Sys2Proof

/-- The prefix before the first `sep` ends inside `l`, or is all of `l` and stops at the `sep` behind it. -/
theorem takeWhile_ne_append_sep (sep : Char) (l c : Text) :
    (l ++ sep :: c).takeWhile (fun x => x ≠ sep) = l.takeWhile (fun x => x ≠ sep) := by
  induction l with
  | nil => simp
  | cons x xs ih =>
    by_cases hx : x = sep
    · simp [hx]
    · simpa [hx] using ih

/-- A comment is no part of the stripped line, whatever the line before it holds. -/
theorem stripLine_append_comment (l c : Text) : stripLine (l ++ ';' :: c) = stripLine l :=
  congrArg trim (takeWhile_ne_append_sep ';' l c)

/-- Without a semicolon the cut leaves the line whole. -/
theorem stripLine_of_no_comment {l : Text} (h : ';' ∉ l) : stripLine l = trim l := by
  have hcut : l.takeWhile (fun c => c ≠ ';') = l :=
    List.takeWhile_eq_self_iff.mpr fun c hc => decide_eq_true (ne_of_mem_of_not_mem hc h)
  rw [stripLine, hcut]

/-- The decoder reads a line through its stripped form only. -/
theorem decodeLine_congr {l l' : Text} (h : stripLine l = stripLine l') : decodeLine l = decodeLine l' := by
  rw [decodeLine, decodeLine, h]

/-- Settles O7: the cut does not reach the comment, and the decoder sees the cut line only. -/
theorem commentIsStripped : Obligations.CommentIsStripped :=
  ⟨fun l c => ⟨stripLine_append_comment l c, decodeLine_congr (stripLine_append_comment l c)⟩,
    fun _ => stripLine_of_no_comment⟩

end Sys2Proof
end

