-- ==== Sys2Proof/Proofs/Alu.lean ====
section
/-! The ALU of 41_arithmetic.md (R131 to R133). A sum leaves the 16-bit range by one modulus upwards at most and a
difference by one modulus downwards at most, so wrapping takes away or adds 65536 once. -/

namespace Sys2Proof

open Machine

/-! ### Wrapping by one modulus -/

/-- An integer one modulus too large loses it. -/
theorem intOf_wrap16_of_carry {v : Int} (h0 : 65535 < v) (h1 : v < 131072) : intOf (wrap16 v) = v - 65536 := by
  rw [intOf_wrap16]
  omega

/-- An integer one modulus too small gains it. -/
theorem intOf_wrap16_of_borrow {v : Int} (h0 : -65536 ≤ v) (h1 : v < 0) : intOf (wrap16 v) = v + 65536 := by
  rw [intOf_wrap16]
  omega

/-- A natural number wraps to its low 16 bits. -/
theorem toNat_wrap16_natCast (n : Nat) : (wrap16 n).toNat = n % 65536 :=
  congrArg BitVec.toNat (BitVec.ofInt_natCast 16 n)

/-! ### `ALU_ADD` -/

@[simp] theorem aluAdd_raw (a b : Word) : (aluAdd a b).raw = intOf a + intOf b := rfl

@[simp] theorem aluAdd_r (a b : Word) : (aluAdd a b).r = wrap16 (intOf a + intOf b) := rfl

theorem aluAdd_carry (a b : Word) : (aluAdd a b).carry = decide (0xFFFF < a.toNat + b.toNat) :=
  decide_eq_decide.mpr (by simp only [intOf]; omega)

theorem aluAdd_overflow (a b : Word) :
    (aluAdd a b).overflow = decide (signBit a = signBit b ∧ signBit (aluAdd a b).r ≠ signBit a) :=
  (Bool.decide_and ..).symm

theorem aluAdd_raw_nonneg (a b : Word) : 0 ≤ (aluAdd a b).raw := Int.add_nonneg (intOf_nonneg a) (intOf_nonneg b)

theorem aluAdd_raw_lt (a b : Word) : (aluAdd a b).raw < 131072 := by
  have ha := intOf_lt a
  have hb := intOf_lt b
  rw [aluAdd_raw]
  omega

/-- Settles O19: the sum lies between 0 and twice the modulus, so it fits or is one modulus too large. -/
theorem aluAddition : Obligations.AluAddition := by
  intro a b
  refine ⟨rfl, fun hfits => ?fits, fun hwraps => ?wraps, aluAdd_carry a b, aluAdd_overflow a b⟩
  case fits => exact intOf_wrap16_of_fits (aluAdd_raw_nonneg a b) (hfits.trans_lt (by decide))
  case wraps => exact intOf_wrap16_of_carry hwraps (aluAdd_raw_lt a b)

/-! ### `ALU_SUB` -/

@[simp] theorem aluSub_raw (a b : Word) : (aluSub a b).raw = intOf a - intOf b := rfl

@[simp] theorem aluSub_r (a b : Word) : (aluSub a b).r = wrap16 (intOf a - intOf b) := rfl

theorem aluSub_carry (a b : Word) : (aluSub a b).carry = decide (a.toNat < b.toNat) := rfl

theorem aluSub_overflow (a b : Word) :
    (aluSub a b).overflow = decide (signBit a ≠ signBit b ∧ signBit (aluSub a b).r = signBit b) :=
  (Bool.decide_and ..).symm

theorem aluSub_raw_lt (a b : Word) : (aluSub a b).raw < 65536 := by
  have ha := intOf_lt a
  have hb := intOf_nonneg b
  rw [aluSub_raw]
  omega

theorem neg_lt_aluSub_raw (a b : Word) : -65536 < (aluSub a b).raw := by
  have ha := intOf_nonneg a
  have hb := intOf_lt b
  rw [aluSub_raw]
  omega

/-- Settles O20: the difference lies less than one modulus from 0 on either side, so it fits or is one modulus too
small. -/
theorem aluSubtraction : Obligations.AluSubtraction := by
  intro a b
  refine ⟨rfl, fun hfits => ?fits, fun hwraps => ?wraps, aluSub_carry a b, aluSub_overflow a b⟩
  case fits => exact intOf_wrap16_of_fits hfits (aluSub_raw_lt a b)
  case wraps => exact intOf_wrap16_of_borrow (neg_lt_aluSub_raw a b).le hwraps

/-! ### `ALU_MUL` -/

@[simp] theorem aluMul_p (a b : Word) : (aluMul a b).p = a.toNat * b.toNat := rfl

theorem aluMul_p_le (a b : Word) : (aluMul a b).p ≤ 0xFFFE0001 :=
  Nat.mul_le_mul (Nat.le_of_lt_succ a.isLt) (Nat.le_of_lt_succ b.isLt)

theorem aluMul_r_toNat (a b : Word) : (aluMul a b).r.toNat = (aluMul a b).p % 65536 :=
  toNat_wrap16_natCast (a.toNat * b.toNat)

theorem aluMul_big (a b : Word) : (aluMul a b).big = decide (0xFFFF < (aluMul a b).p) := rfl

/-- Settles O21: the bound is the square of the largest word, and a natural number wraps to its remainder. -/
theorem aluMultiplication : Obligations.AluMultiplication :=
  fun a b => ⟨aluMul_p a b, aluMul_p_le a b, aluMul_r_toNat a b, aluMul_big a b⟩

end Sys2Proof
end

