-- ==== Sys2Proof/Proofs/HostCalls.lean ====
section
/-! The host's `run` call of 60_exceptions.md (R186, R187): the step takes the call off the host's list and makes it,
and the call is the identity on every state in which a run is in progress. -/

namespace Sys2Proof

open Machine

/-- The step on a `run` call is the call itself, made after it is taken off the host's list. -/
theorem step_run {s : State} {text : Text} {rest : List HostMove} (h : s.host = .run text :: rest) :
    step s = .next (hostRun text { s with host := rest }) := by
  rw [step, h]

/-- During a run the call drops the text and keeps the state. -/
theorem hostRun_of_busy (text : Text) {s : State} (hb : s.busy = true) : hostRun text s = s := if_pos hb

/-- Settles O50: taking the call off the host's list leaves the run in progress, and the call made there is the
identity. -/
theorem runWhileRunningIsRejected : Obligations.RunWhileRunningIsRejected := by
  intro s text rest hb hcall
  have hbusy : { s with host := rest }.busy = true := hb
  rw [step_run hcall, hostRun_of_busy text hbusy]

end Sys2Proof
end

