-- ==== Sys2Proof/Proofs/TextDecoder.lean ====
section
/-! The Instruction Decoder of 30_encoding.md: which lines are no-ops (R72), with which kinds a line can fail (R92), and
the line of text that stands for each instruction (R93). -/

namespace Sys2Proof

/-! ### A line through its parts (R72, R89) -/

theorem isNoOpLine_iff (t : Text) : isNoOpLine t = true ↔ t = [] ∨ t.getLast? = some ':' := by
  rw [isNoOpLine, Bool.or_eq_true, List.isEmpty_iff, decide_eq_true_iff]

theorem decodeLine_noOp {l : Text} (h : isNoOpLine (stripLine l) = true) : decodeLine l = .noOp := if_pos h

theorem decodeLine_ok {l : Text} {i : Instr} (hn : isNoOpLine (stripLine l) = false)
    (h : decodeInstruction (stripLine l) = .ok i) : decodeLine l = .instr i := by
  rw [decodeLine, hn, h]
  rfl

theorem decodeLine_error {l : Text} {e : ErrorKind} (hn : isNoOpLine (stripLine l) = false)
    (h : decodeInstruction (stripLine l) = .error e) : decodeLine l = .failure e := by
  rw [decodeLine, hn, h]
  rfl

/-- Settles O8: an instruction line decodes to an instruction or to a failure, never to a no-op. -/
theorem noOpLinesAreBlankOrLabel : Obligations.NoOpLinesAreBlankOrLabel := by
  intro l
  rw [← isNoOpLine_iff]
  refine ⟨fun hdecoded => ?isNoOp, decodeLine_noOp⟩
  case isNoOp =>
    by_contra hn
    rw [Bool.not_eq_true] at hn
    cases hi : decodeInstruction (stripLine l) with
    | ok i => rw [decodeLine_ok hn hi] at hdecoded; cases hdecoded
    | error e => rw [decodeLine_error hn hi] at hdecoded; cases hdecoded

/-! ### The opcode word (R74, R75) -/

theorem decodeInstruction_not_identifier {t : Text} (h : isIdentifier (opcodeWord t) = false) :
    decodeInstruction t = .error .invalidInstructionFormat := by
  rw [decodeInstruction, h]
  rfl

theorem decodeInstruction_unknown {t : Text} (h : isIdentifier (opcodeWord t) = true)
    (hop : parseOp (opcodeWord t) = none) : decodeInstruction t = .error .unknownInstruction := by
  rw [decodeInstruction, if_pos h, hop]

/-- Settles O10: the word is looked at before anything else of the line, first as an identifier and then as an
opcode. -/
theorem unknownOpcodeFails : Obligations.UnknownOpcodeFails := by
  intro l hn
  refine ⟨fun hid hnone => ?unknown, fun hid => ?format⟩
  case unknown =>
    have hop : parseOp (opcodeWord (stripLine l)) = none := parseOp_eq_none.mpr fun o => (hnone o).symm
    exact decodeLine_error hn (decodeInstruction_unknown hid hop)
  case format => exact decodeLine_error hn (decodeInstruction_not_identifier hid)

/-! ### The kinds of the decoder's failures (R92) -/

/-- The six kinds that the decoder raises (R171 to R175, R178). -/
def ErrorKind.ofDecoder (e : ErrorKind) : Prop :=
  e = .invalidInstructionFormat ∨ e = .unknownInstruction ∨ e = .missingArguments ∨ e = .unknownRegister
    ∨ e = .invalidOperand ∨ e = .invalidAddress

/-- A part of the decoder that fails with these kinds only. -/
def FailsAsDecoder {α : Type} (r : Except ErrorKind α) : Prop := ∀ e, r = .error e → e.ofDecoder

@[simp] theorem failsAsDecoder_ok {α : Type} (x : α) : FailsAsDecoder (.ok x : Except ErrorKind α) :=
  fun _ h => nomatch h

@[simp] theorem failsAsDecoder_error {α : Type} (e : ErrorKind) :
    FailsAsDecoder (.error e : Except ErrorKind α) ↔ e.ofDecoder :=
  ⟨fun h => h e rfl, fun h e' he => by injection he with he; exact he ▸ h⟩

theorem resolveSrc_fails (t : Text) : FailsAsDecoder (resolveSrc t) := by
  unfold resolveSrc
  split
  · split <;> simp [ErrorKind.ofDecoder]
  · split
    · simp
    · split <;> simp [ErrorKind.ofDecoder]

theorem resolveDst_fails (t : Text) : FailsAsDecoder (resolveDst t) := by
  unfold resolveDst
  split
  · split <;> simp [ErrorKind.ofDecoder]
  · split <;> simp [ErrorKind.ofDecoder]

/-- A failing destination fails the instruction, then a failing source, then the form. -/
theorem resolveBoth_fails {form : Dst → Src → Except ErrorKind Instr} (hf : ∀ d s, FailsAsDecoder (form d s))
    (d s : Text) : FailsAsDecoder (resolveBoth form d s) := by
  have hd := resolveDst_fails d
  have hs := resolveSrc_fails s
  unfold resolveBoth
  cases hdst : resolveDst d with
  | error e => simpa using hd e hdst
  | ok dst =>
    cases hsrc : resolveSrc s with
    | error e => simpa using hs e hsrc
    | ok src => exact hf dst src

theorem resolveOneDst_fails {form : Dst → Except ErrorKind Instr} (hf : ∀ d, FailsAsDecoder (form d)) (d : Text) :
    FailsAsDecoder (resolveOneDst form d) := by
  have hd := resolveDst_fails d
  unfold resolveOneDst
  cases hdst : resolveDst d with
  | error e => simpa using hd e hdst
  | ok dst => exact hf dst

theorem resolveOneSrc_fails {form : Src → Except ErrorKind Instr} (hf : ∀ s, FailsAsDecoder (form s)) (s : Text) :
    FailsAsDecoder (resolveOneSrc form s) := by
  have hs := resolveSrc_fails s
  unfold resolveOneSrc
  cases hsrc : resolveSrc s with
  | error e => simpa using hs e hsrc
  | ok src => exact hf src

theorem formMov_fails (d : Dst) (s : Src) : FailsAsDecoder (formMov d s) := by
  cases d <;> cases s <;> simp [formMov, ErrorKind.ofDecoder]

theorem formAdd_fails (d : Dst) (s : Src) : FailsAsDecoder (formAdd d s) := by
  cases d <;> cases s <;> simp [formAdd, ErrorKind.ofDecoder]

theorem formSub_fails (d : Dst) (s : Src) : FailsAsDecoder (formSub d s) := by
  cases d <;> cases s <;> simp [formSub, ErrorKind.ofDecoder]

theorem formPop_fails (d : Dst) : FailsAsDecoder (formPop d) := by
  cases d <;> simp [formPop, ErrorKind.ofDecoder]

theorem formPush_fails (s : Src) : FailsAsDecoder (formPush s) := by
  cases s <;> simp [formPush, ErrorKind.ofDecoder]

theorem formMul_fails (s : Src) : FailsAsDecoder (formMul s) := by
  cases s <;> simp [formMul, ErrorKind.ofDecoder]

theorem formDiv_fails (s : Src) : FailsAsDecoder (formDiv s) := by
  cases s <;> simp [formDiv, ErrorKind.ofDecoder]

theorem decodeOperands_fails (op : Op) (toks : List Text) : FailsAsDecoder (decodeOperands op toks) := by
  unfold decodeOperands
  split
  · exact resolveBoth_fails formMov_fails _ _
  · exact resolveBoth_fails formAdd_fails _ _
  · exact resolveBoth_fails formSub_fails _ _
  · exact resolveOneDst_fails formPop_fails _
  · exact resolveOneSrc_fails formPush_fails _
  · exact resolveOneSrc_fails formMul_fails _
  · exact resolveOneSrc_fails formDiv_fails _
  · split <;> simp [ErrorKind.ofDecoder]

theorem decodeInstruction_fails (t : Text) : FailsAsDecoder (decodeInstruction t) := by
  unfold decodeInstruction
  split
  · split
    · simp [ErrorKind.ofDecoder]
    · split
      · simp [ErrorKind.ofDecoder]
      · exact decodeOperands_fails _ _
  · simp [ErrorKind.ofDecoder]

/-- Settles O9: a failing line is an instruction line, and the failure is that of its instruction. -/
theorem decoderFailsWithSixKinds : Obligations.DecoderFailsWithSixKinds := by
  intro l e hdecoded
  cases hn : isNoOpLine (stripLine l) with
  | true => rw [decodeLine_noOp hn] at hdecoded; cases hdecoded
  | false =>
    cases hi : decodeInstruction (stripLine l) with
    | ok i => rw [decodeLine_ok hn hi] at hdecoded; cases hdecoded
    | error e' =>
      rw [decodeLine_error hn hi] at hdecoded
      injection hdecoded with he
      exact he ▸ decodeInstruction_fails _ e' hi

/-! ### The line of an instruction (R93) -/

theorem resolveBoth_ok {form : Dst → Src → Except ErrorKind Instr} {d s : Text} {dst : Dst} {src : Src}
    (hd : resolveDst d = .ok dst) (hs : resolveSrc s = .ok src) : resolveBoth form d s = form dst src := by
  rw [resolveBoth, hd, hs]

theorem resolveOneDst_ok {form : Dst → Except ErrorKind Instr} {d : Text} {dst : Dst} (hd : resolveDst d = .ok dst) :
    resolveOneDst form d = form dst := by
  rw [resolveOneDst, hd]

theorem resolveOneSrc_ok {form : Src → Except ErrorKind Instr} {s : Text} {src : Src} (hs : resolveSrc s = .ok src) :
    resolveOneSrc form s = form src := by
  rw [resolveOneSrc, hs]

/-- Settles O1: a line of the encoder is cut into its opcode and tokens, and each token resolves to the operand it was
written for. -/
theorem lineOfInstructionDecodesToIt : Obligations.LineOfInstructionDecodesToIt := by
  intro i
  cases i with
  | movRegReg r q =>
    exact decodeLine_two .mov (token_reg r) (token_reg q) (resolveBoth_ok (resolveDst_reg r) (resolveSrc_reg q))
  | movRegImm r n =>
    exact decodeLine_two .mov (token_reg r) (token_hexText _) (resolveBoth_ok (resolveDst_reg r) (resolveSrc_hexText n))
  | movRegMem r a =>
    exact decodeLine_two .mov (token_reg r) (token_memoryText a)
      (resolveBoth_ok (resolveDst_reg r) (resolveSrc_memoryText a))
  | movMemReg a q =>
    exact decodeLine_two .mov (token_memoryText a) (token_reg q)
      (resolveBoth_ok (resolveDst_memoryText a) (resolveSrc_reg q))
  | movMemImm a n =>
    exact decodeLine_two .mov (token_memoryText a) (token_hexText _)
      (resolveBoth_ok (resolveDst_memoryText a) (resolveSrc_hexText n))
  | pushReg q => exact decodeLine_one .push (token_reg q) (resolveOneSrc_ok (resolveSrc_reg q))
  | pushImm n => exact decodeLine_one .push (token_hexText _) (resolveOneSrc_ok (resolveSrc_hexText n))
  | popReg r => exact decodeLine_one .pop (token_reg r) (resolveOneDst_ok (resolveDst_reg r))
  | addRegReg r q =>
    exact decodeLine_two .add (token_reg r) (token_reg q) (resolveBoth_ok (resolveDst_reg r) (resolveSrc_reg q))
  | addRegImm r n =>
    exact decodeLine_two .add (token_reg r) (token_hexText _) (resolveBoth_ok (resolveDst_reg r) (resolveSrc_hexText n))
  | subRegReg r q =>
    exact decodeLine_two .sub (token_reg r) (token_reg q) (resolveBoth_ok (resolveDst_reg r) (resolveSrc_reg q))
  | subRegImm r n =>
    exact decodeLine_two .sub (token_reg r) (token_hexText _) (resolveBoth_ok (resolveDst_reg r) (resolveSrc_hexText n))
  | mulReg q => exact decodeLine_one .mul (token_reg q) (resolveOneSrc_ok (resolveSrc_reg q))
  | mulImm n => exact decodeLine_one .mul (token_hexText _) (resolveOneSrc_ok (resolveSrc_hexText n))
  | divReg q => exact decodeLine_one .div (token_reg q) (resolveOneSrc_ok (resolveSrc_reg q))
  | divImm n => exact decodeLine_one .div (token_hexText _) (resolveOneSrc_ok (resolveSrc_hexText n))

end Sys2Proof
end

