-- ==== Sys2Proof/Proofs/LetterCase.lean ====
section
/-! Letter case in a line (R75, R79 to R81): each part of the decoder either gives the same on the line in lower case,
or gives the lower case of what it gave. -/

namespace Sys2Proof

/-! ### Cutting and trimming -/

@[simp] theorem lower_eq_nil (t : Text) : lower t = [] ↔ t = [] := List.map_eq_nil_iff

@[simp] theorem isEmpty_lower (t : Text) : (lower t).isEmpty = t.isEmpty := List.isEmpty_map

theorem lower_cons (c : Char) (t : Text) : lower (c :: t) = lowerChar c :: lower t := rfl

/-- What a test that ignores letter case selects from the front of a text. -/
theorem takeWhile_lower {p : Char → Bool} (hp : ∀ c, p (lowerChar c) = p c) (t : Text) :
    (lower t).takeWhile p = lower (t.takeWhile p) := by
  rw [lower, List.takeWhile_map]
  exact congrArg (fun q => lower (t.takeWhile q)) (funext hp)

theorem dropWhile_lower {p : Char → Bool} (hp : ∀ c, p (lowerChar c) = p c) (t : Text) :
    (lower t).dropWhile p = lower (t.dropWhile p) := by
  rw [lower, List.dropWhile_map]
  exact congrArg (fun q => lower (t.dropWhile q)) (funext hp)

theorem reverse_lower (t : Text) : (lower t).reverse = lower t.reverse := (List.map_reverse ..).symm

theorem trim_lower (t : Text) : trim (lower t) = lower (trim t) := by
  simp only [trim, dropWhile_lower isSpace_lowerChar, reverse_lower]

theorem stripLine_lower (l : Text) : stripLine (lower l) = lower (stripLine l) := by
  have hsemi : ∀ c, decide (lowerChar c ≠ ';') = decide (c ≠ ';') := fun c =>
    decide_eq_decide.mpr (not_congr (lowerChar_eq_iff (by decide) c))
  rw [stripLine, takeWhile_lower hsemi, trim_lower, stripLine]

/-- A character that is no letter ends a text in lower case exactly when it ends the text. -/
theorem getLast?_lower {k : Char} (hk : k.toNat < 65 ∨ 90 < k.toNat ∧ k.toNat < 97 ∨ 122 < k.toNat) (t : Text) :
    (lower t).getLast? = some k ↔ t.getLast? = some k := by
  simp only [lower, List.getLast?_map, Option.map_eq_some_iff, lowerChar_eq_iff hk, exists_eq_right]

theorem isNoOpLine_lower (t : Text) : isNoOpLine (lower t) = isNoOpLine t := by
  rw [Bool.eq_iff_iff, isNoOpLine_iff, isNoOpLine_iff, lower_eq_nil, getLast?_lower (by decide)]

theorem opcodeWord_lower (t : Text) : opcodeWord (lower t) = lower (opcodeWord t) :=
  takeWhile_lower (fun c => congrArg not (isSpace_lowerChar c)) t

theorem operandText_lower (t : Text) : operandText (lower t) = lower (operandText t) := by
  rw [operandText, dropWhile_lower (fun c => congrArg not (isSpace_lowerChar c)), trim_lower, operandText]

theorem cutAt_lower {sep : Char} (hs : sep.toNat < 65 ∨ 90 < sep.toNat ∧ sep.toNat < 97 ∨ 122 < sep.toNat)
    (t : Text) : cutAt sep (lower t) = (cutAt sep t).map lower := by
  induction t with
  | nil => rfl
  | cons c cs ih =>
    rw [lower_cons, cutAt, cutAt, ih]
    by_cases hc : c = sep
    · rw [if_pos ((lowerChar_eq_iff hs c).mpr hc), if_pos hc]
      rfl
    · rw [if_neg (mt (lowerChar_eq_iff hs c).mp hc), if_neg hc]
      cases cutAt sep cs <;> rfl

theorem operandTokens_lower (t : Text) : operandTokens (lower t) = (operandTokens t).map lower := by
  have htrim : trim ∘ lower = lower ∘ trim := funext trim_lower
  by_cases ht : t = []
  · subst ht
    rfl
  · rw [operandTokens, operandTokens, if_neg (mt (lower_eq_nil t).mp ht), if_neg ht, cutAt_lower (by decide),
      List.map_map, List.map_map, htrim]

/-! ### Names -/

theorem isIdentRest_lowerChar (c : Char) : isIdentRest (lowerChar c) = isIdentRest c := by
  rw [isIdentRest, isIdentStart_lowerChar, decValue_lowerChar, isIdentRest]

theorem isIdentifier_lower (t : Text) : isIdentifier (lower t) = isIdentifier t := by
  cases t with
  | nil => rfl
  | cons c cs =>
    have hrest : isIdentRest ∘ lowerChar = isIdentRest := funext isIdentRest_lowerChar
    rw [lower_cons, isIdentifier, isIdentifier, isIdentStart_lowerChar, lower, List.all_map, hrest]

theorem parseOp_lower (t : Text) : parseOp (lower t) = parseOp t := by rw [parseOp, lower_lower, parseOp]

theorem parseReg_lower (t : Text) : parseReg (lower t) = parseReg t := by rw [parseReg, lower_lower, parseReg]

/-! ### Literals (R80) -/

theorem parseDigits_lower {value : Char → Option Nat} (hv : ∀ c, value (lowerChar c) = value c) (base acc : Nat)
    (t : Text) : parseDigits value base acc (lower t) = parseDigits value base acc t := by
  induction t generalizing acc with
  | nil => rfl
  | cons c cs ih =>
    rw [lower_cons, parseDigits, parseDigits, hv]
    cases value c with
    | none => rfl
    | some d => exact ih _

/-- The one letter of a literal that is no digit may stand in either case. -/
theorem lowerChar_x_iff (c : Char) : lowerChar c = 'x' ∨ lowerChar c = 'X' ↔ c = 'x' ∨ c = 'X' :=
  lowerChar_cases (P := fun c d => d = 'x' ∨ d = 'X' ↔ c = 'x' ∨ c = 'X') (fun _ => Iff.rfl)
    (fun n _ _ => by interval_cases n <;> decide) c

theorem hexMarked_cons_cons (c d : Char) (t : Text) :
    hexMarked (c :: d :: t) = decide (c = '0' ∧ (d = 'x' ∨ d = 'X')) := by
  simp [hexMarked, and_or_left]

theorem hexMarked_lower (t : Text) : hexMarked (lower t) = hexMarked t := by
  match t with
  | [] => rfl
  | [c] => simp [lower, hexMarked]
  | c :: d :: t =>
    rw [lower_cons, lower_cons, hexMarked_cons_cons, hexMarked_cons_cons]
    exact decide_eq_decide.mpr (and_congr (lowerChar_eq_iff (by decide) c) (lowerChar_x_iff d))

theorem parseMagnitude_lower (t : Text) : parseMagnitude (lower t) = parseMagnitude t := by
  have hdrop : (lower t).drop 2 = lower (t.drop 2) := (List.map_drop ..).symm
  simp only [parseMagnitude, hexMarked_lower, hdrop, lower_eq_nil, parseDigits_lower hexValue_lowerChar,
    parseDigits_lower decValue_lowerChar]

theorem parseLiteral_lower (t : Text) : parseLiteral (lower t) = parseLiteral t := by
  cases t with
  | nil => rfl
  | cons c cs =>
    have hall : parseMagnitude (lowerChar c :: lower cs) = parseMagnitude (c :: cs) := parseMagnitude_lower (c :: cs)
    simp only [lower_cons, parseLiteral, lowerChar_eq_iff (k := '-') (by decide),
      lowerChar_eq_iff (k := '+') (by decide), parseMagnitude_lower, hall]

/-! ### Operands (R82 to R86) -/

theorem memoryInner_lower (t : Text) : memoryInner (lower t) = (memoryInner t).map lower := by
  cases t with
  | nil => rfl
  | cons c cs =>
    have hdrop : (lower cs).dropLast = lower cs.dropLast := (List.map_dropLast ..).symm
    simp only [lower_cons, memoryInner, lowerChar_eq_iff (k := '[') (by decide), getLast?_lower (k := ']') (by decide),
      hdrop, trim_lower]
    split <;> rfl

theorem resolveSrc_lower (t : Text) : resolveSrc (lower t) = resolveSrc t := by
  rw [resolveSrc, resolveSrc, memoryInner_lower, parseReg_lower, parseLiteral_lower]
  cases memoryInner t with
  | none => rfl
  | some inner => simp only [Option.map_some, parseLiteral_lower]

theorem resolveDst_lower (t : Text) : resolveDst (lower t) = resolveDst t := by
  rw [resolveDst, resolveDst, memoryInner_lower, parseReg_lower]
  cases memoryInner t with
  | none => rfl
  | some inner => simp only [Option.map_some, parseLiteral_lower]

theorem resolveBoth_lower (form : Dst → Src → Except ErrorKind Instr) (d s : Text) :
    resolveBoth form (lower d) (lower s) = resolveBoth form d s := by
  rw [resolveBoth, resolveDst_lower, resolveSrc_lower, resolveBoth]

theorem resolveOneDst_lower (form : Dst → Except ErrorKind Instr) (d : Text) :
    resolveOneDst form (lower d) = resolveOneDst form d := by
  rw [resolveOneDst, resolveDst_lower, resolveOneDst]

theorem resolveOneSrc_lower (form : Src → Except ErrorKind Instr) (s : Text) :
    resolveOneSrc form (lower s) = resolveOneSrc form s := by
  rw [resolveOneSrc, resolveSrc_lower, resolveOneSrc]

/-- The number of tokens decides between resolving them and failing, and it is the same in lower case. -/
theorem decodeOperands_lower (op : Op) (toks : List Text) :
    decodeOperands op (toks.map lower) = decodeOperands op toks := by
  match toks with
  | [] => cases op <;> rfl
  | [t] => cases op <;> simp [decodeOperands, resolveOneDst_lower, resolveOneSrc_lower]
  | [d, s] => cases op <;> simp [decodeOperands, resolveBoth_lower]
  | a :: b :: c :: rest => cases op <;> simp [decodeOperands]

theorem decodeInstruction_lower (t : Text) : decodeInstruction (lower t) = decodeInstruction t := by
  simp only [decodeInstruction, opcodeWord_lower, operandText_lower, operandTokens_lower, isIdentifier_lower,
    parseOp_lower, List.any_map, Function.comp_def, isEmpty_lower, decodeOperands_lower]

/-- Settles O6: stripping gives the lower case of the stripped line, which decodes as the stripped line does. -/
theorem letterCaseIsIgnored : Obligations.LetterCaseIsIgnored := by
  intro l
  rw [decodeLine, decodeLine, stripLine_lower, isNoOpLine_lower, decodeInstruction_lower]

end Sys2Proof
end

