-- ==== Sys2Proof/Proofs/DecodedWord.lean ====
section
/-! The decoded-instruction word of 30_encoding.md section 7 (R95 to R99): decode and encode are inverse on the legal
words and the well-formed instructions, and the executor's port for words agrees with the instructions. -/

namespace Sys2Proof

open Machine

/-! ### Decode after encode -/

/-- The fields of a word determine a well-formed instruction, form by form. -/
theorem instrOfFields_fieldsOfInstr {i : Instr} (h : i.WellFormed) : instrOfFields (fieldsOfInstr i) = some i := by
  cases i with
  | movRegReg r q => exact Laws.DiwFieldsRoundTrip.movRegReg r q h
  | movRegImm r n => exact Laws.DiwFieldsRoundTrip.movRegImm r n h
  | movRegMem r a => exact Laws.DiwFieldsRoundTrip.movRegMem r a h
  | movMemReg a q => exact Laws.DiwFieldsRoundTrip.movMemReg a q h
  | movMemImm a n => exact Laws.DiwFieldsRoundTrip.movMemImm a n h
  | pushReg q => exact Laws.DiwFieldsRoundTrip.pushReg q h
  | pushImm n => exact Laws.DiwFieldsRoundTrip.pushImm n h
  | popReg r => exact Laws.DiwFieldsRoundTrip.popReg r h
  | addRegReg r q => exact Laws.DiwFieldsRoundTrip.addRegReg r q h
  | addRegImm r n => exact Laws.DiwFieldsRoundTrip.addRegImm r n h
  | subRegReg r q => exact Laws.DiwFieldsRoundTrip.subRegReg r q h
  | subRegImm r n => exact Laws.DiwFieldsRoundTrip.subRegImm r n h
  | mulReg q => exact Laws.DiwFieldsRoundTrip.mulReg q h
  | mulImm n => exact Laws.DiwFieldsRoundTrip.mulImm n h
  | divReg q => exact Laws.DiwFieldsRoundTrip.divReg q h
  | divImm n => exact Laws.DiwFieldsRoundTrip.divImm n h

/-- Settles O2: packing and unpacking keep the fields, and the fields determine the instruction. -/
theorem wordOfInstructionDecodesToIt : Obligations.WordOfInstructionDecodesToIt := by
  intro i h
  rw [decode, encode, unpackDiw_packDiw, instrOfFields_fieldsOfInstr h]

/-- Settles O11: each word of the spec is the model's word for its instruction. -/
theorem specWordsDecode : Obligations.SpecWordsDecode := by
  unfold Obligations.SpecWordsDecode
  decide

/-! ### Encode after decode

A legal word has the three fields of its form, and 0 in every field the form does not use. -/

/-- A field that is either used or 0. -/
theorem eq_ite_of_or {α : Type} {used : Bool} {x zero : α} (h : used = true ∨ x = zero) :
    x = if used then x else zero := by
  cases used with
  | true => rfl
  | false => exact h.resolve_left Bool.false_ne_true

/-- What a form checks of the address fields: one that has no memory operand has 0 in both, and one that has an address
has 0 in place of an address that is lost. -/
theorem address_fields_of_onlyUses {f : DiwFields} {d s a m : Bool} (hu : f.onlyUses d s a m = true) :
    (a = true ∨ f.ao = 0 ∧ f.addr = 0) ∧ (f.ao = 0 ∨ f.addr = 0) := by
  simp only [DiwFields.onlyUses, Bool.and_eq_true] at hu
  obtain ⟨⟨⟨⟨_, ha⟩, _⟩, _⟩, _⟩ := hu
  cases a with
  | true => exact ⟨.inl rfl, by simpa using ha⟩
  | false =>
    have hboth : f.ao = 0 ∧ f.addr = 0 := by simpa using ha
    exact ⟨.inr hboth, .inl hboth.1⟩

/-- The fields of a form: those it uses at their values, the others at 0. -/
theorem eq_of_onlyUses {f : DiwFields} {op : BitVec 4} {dk sk : BitVec 2} {d s a m : Bool}
    (hop : f.op.toNat = op.toNat) (hdk : f.dk.toNat = dk.toNat) (hsk : f.sk.toNat = sk.toNat)
    (hu : f.onlyUses d s a m = true) :
    f = { bareFields op dk sk with
      dr := if d then f.dr else 0
      sr := if s then f.sr else 0
      ao := if a then f.ao else 0
      addr := if a then f.addr else 0
      imm := if m then f.imm else 0 } := by
  obtain ⟨ha, _⟩ := address_fields_of_onlyUses hu
  obtain ⟨fop, fdk, fsk, fdr, fsr, fzh, fao, faddr, fimm, fzl⟩ := f
  obtain rfl := BitVec.eq_of_toNat_eq hop
  obtain rfl := BitVec.eq_of_toNat_eq hdk
  obtain rfl := BitVec.eq_of_toNat_eq hsk
  simp only [DiwFields.onlyUses, Bool.and_eq_true, Bool.or_eq_true, decide_eq_true_eq] at hu
  obtain ⟨⟨⟨⟨⟨hd, hs⟩, _⟩, hm⟩, rfl⟩, rfl⟩ := hu
  rw [DiwFields.mk.injEq]
  exact ⟨rfl, rfl, rfl, eq_ite_of_or hd, eq_ite_of_or hs, rfl, eq_ite_of_or (ha.imp_right And.left),
    eq_ite_of_or (ha.imp_right And.right), eq_ite_of_or hm, rfl⟩

theorem regOfNum_eq_some {n : BitVec 4} {r : Reg} : regOfNum n = some r ↔ r.num = n :=
  ⟨num_of_regOfNum, fun h => h ▸ regOfNum_num r⟩

/-- The register fields of a legal word are the numbers of its registers (R96). -/
theorem withDr_eq_some {f : DiwFields} {k : Reg → Instr} {i : Instr} :
    withDr f k = some i ↔ ∃ r : Reg, r.num = f.dr ∧ k r = i := by
  rw [withDr, Option.map_eq_some_iff]
  exact exists_congr fun r => and_congr_left' regOfNum_eq_some

theorem withSr_eq_some {f : DiwFields} {k : Reg → Instr} {i : Instr} :
    withSr f k = some i ↔ ∃ q : Reg, q.num = f.sr ∧ k q = i := by
  rw [withSr, Option.map_eq_some_iff]
  exact exists_congr fun q => and_congr_left' regOfNum_eq_some

theorem withDrSr_eq_some {f : DiwFields} {k : Reg → Reg → Instr} {i : Instr} :
    withDrSr f k = some i ↔ ∃ r q : Reg, r.num = f.dr ∧ q.num = f.sr ∧ k r q = i := by
  simp only [withDrSr, Option.bind_eq_some_iff, Option.map_eq_some_iff, regOfNum_eq_some, exists_and_left]

/-- The address of a memory form goes back into the fields it was read from. -/
theorem putAddr_address_self {f : DiwFields} (g : DiwFields) (h : f.ao = 0 ∨ f.addr = 0) :
    g.putAddr f.address = { g with ao := f.ao, addr := f.addr } := by
  unfold DiwFields.putAddr DiwFields.address
  by_cases hao : f.ao = 0
  · have hin : addrInArray (f.addr.toNat : Int) = true := by
      rw [addrInArray_iff]
      have := f.addr.isLt
      omega
    simp [hao, hin]
  · have hone : f.ao = 1 := by
      generalize f.ao = x at hao
      revert x
      decide
    have hout : addrInArray outsideAddr = false := by decide
    simp [hone, hout, h.resolve_left hao]

section Shapes

variable {f : DiwFields} {op : BitVec 4} {dk sk : BitVec 2} {i : Instr}

/-- The legal words of a form with two registers. -/
theorem fields_of_two_registers {k : Reg → Reg → Instr} (hop : f.op.toNat = op.toNat) (hdk : f.dk.toNat = dk.toNat)
    (hsk : f.sk.toNat = sk.toNat) (h : (if f.onlyUses true true false false then withDrSr f k else none) = some i) :
    ∃ r q : Reg, i = k r q ∧ { bareFields op dk sk with dr := r.num, sr := q.num } = f := by
  obtain ⟨hu, h⟩ := Option.ite_none_right_eq_some.mp h
  obtain ⟨r, q, hr, hq, rfl⟩ := withDrSr_eq_some.mp h
  exact ⟨r, q, rfl, by rw [hr, hq]; exact (eq_of_onlyUses hop hdk hsk hu).symm⟩

/-- The legal words of a form with a destination register and an immediate. -/
theorem fields_of_register_imm {k : Reg → Word → Instr} (hop : f.op.toNat = op.toNat) (hdk : f.dk.toNat = dk.toNat)
    (hsk : f.sk.toNat = sk.toNat)
    (h : (if f.onlyUses true false false true then withDr f (fun r => k r f.imm) else none) = some i) :
    ∃ (r : Reg) (n : Word), i = k r n ∧ { bareFields op dk sk with dr := r.num, imm := n } = f := by
  obtain ⟨hu, h⟩ := Option.ite_none_right_eq_some.mp h
  obtain ⟨r, hr, rfl⟩ := withDr_eq_some.mp h
  exact ⟨r, f.imm, rfl, by rw [hr]; exact (eq_of_onlyUses hop hdk hsk hu).symm⟩

/-- The legal words of a form with a source register only. -/
theorem fields_of_source {k : Reg → Instr} (hop : f.op.toNat = op.toNat) (hdk : f.dk.toNat = dk.toNat)
    (hsk : f.sk.toNat = sk.toNat) (h : (if f.onlyUses false true false false then withSr f k else none) = some i) :
    ∃ q : Reg, i = k q ∧ { bareFields op dk sk with sr := q.num } = f := by
  obtain ⟨hu, h⟩ := Option.ite_none_right_eq_some.mp h
  obtain ⟨q, hq, rfl⟩ := withSr_eq_some.mp h
  exact ⟨q, rfl, by rw [hq]; exact (eq_of_onlyUses hop hdk hsk hu).symm⟩

/-- The legal words of a form with an immediate only. -/
theorem fields_of_imm {k : Word → Instr} (hop : f.op.toNat = op.toNat) (hdk : f.dk.toNat = dk.toNat)
    (hsk : f.sk.toNat = sk.toNat) (h : (if f.onlyUses false false false true then some (k f.imm) else none) = some i) :
    ∃ n : Word, i = k n ∧ { bareFields op dk sk with imm := n } = f := by
  obtain ⟨hu, h⟩ := Option.ite_none_right_eq_some.mp h
  cases h
  exact ⟨f.imm, rfl, (eq_of_onlyUses hop hdk hsk hu).symm⟩

end Shapes

/-- A legal word's fields are those of the instruction it decodes to, form by form. -/
theorem fieldsOfInstr_of_instrOfFields {f : DiwFields} {i : Instr} (h : instrOfFields f = some i) :
    fieldsOfInstr i = f ∧ i.WellFormed := by
  unfold instrOfFields at h
  split at h
  case h_1 hop hdk hsk =>
    obtain ⟨r, q, rfl, hf⟩ := fields_of_two_registers (op := 0) (dk := 1) (sk := 1) hop hdk hsk h
    exact ⟨hf, rfl⟩
  case h_2 hop hdk hsk =>
    obtain ⟨r, n, rfl, hf⟩ := fields_of_register_imm (op := 0) (dk := 1) (sk := 2) hop hdk hsk h
    exact ⟨hf, rfl⟩
  case h_3 hop hdk hsk =>
    obtain ⟨hu, h⟩ := Option.ite_none_right_eq_some.mp h
    obtain ⟨r, hr, rfl⟩ := withDr_eq_some.mp h
    refine ⟨?_, address_exact f⟩
    rw [fieldsOfInstr, hr, putAddr_address_self _ (address_fields_of_onlyUses hu).2]
    exact (eq_of_onlyUses (op := 0) (dk := 1) (sk := 3) hop hdk hsk hu).symm
  case h_4 hop hdk hsk =>
    obtain ⟨hu, h⟩ := Option.ite_none_right_eq_some.mp h
    obtain ⟨q, hq, rfl⟩ := withSr_eq_some.mp h
    refine ⟨?_, address_exact f⟩
    rw [fieldsOfInstr, hq, putAddr_address_self _ (address_fields_of_onlyUses hu).2]
    exact (eq_of_onlyUses (op := 0) (dk := 2) (sk := 1) hop hdk hsk hu).symm
  case h_5 hop hdk hsk =>
    obtain ⟨hu, h⟩ := Option.ite_none_right_eq_some.mp h
    cases h
    refine ⟨?_, address_exact f⟩
    rw [fieldsOfInstr, putAddr_address_self _ (address_fields_of_onlyUses hu).2]
    exact (eq_of_onlyUses (op := 0) (dk := 2) (sk := 2) hop hdk hsk hu).symm
  case h_6 hop hdk hsk =>
    obtain ⟨q, rfl, hf⟩ := fields_of_source (op := 1) (dk := 0) (sk := 1) hop hdk hsk h
    exact ⟨hf, rfl⟩
  case h_7 hop hdk hsk =>
    obtain ⟨n, rfl, hf⟩ := fields_of_imm (op := 1) (dk := 0) (sk := 2) hop hdk hsk h
    exact ⟨hf, rfl⟩
  case h_8 hop hdk hsk =>
    obtain ⟨hu, h⟩ := Option.ite_none_right_eq_some.mp h
    obtain ⟨r, hr, rfl⟩ := withDr_eq_some.mp h
    refine ⟨?_, rfl⟩
    rw [fieldsOfInstr, hr]
    exact (eq_of_onlyUses (op := 2) (dk := 1) (sk := 0) hop hdk hsk hu).symm
  case h_9 hop hdk hsk =>
    obtain ⟨r, q, rfl, hf⟩ := fields_of_two_registers (op := 3) (dk := 1) (sk := 1) hop hdk hsk h
    exact ⟨hf, rfl⟩
  case h_10 hop hdk hsk =>
    obtain ⟨r, n, rfl, hf⟩ := fields_of_register_imm (op := 3) (dk := 1) (sk := 2) hop hdk hsk h
    exact ⟨hf, rfl⟩
  case h_11 hop hdk hsk =>
    obtain ⟨r, q, rfl, hf⟩ := fields_of_two_registers (op := 4) (dk := 1) (sk := 1) hop hdk hsk h
    exact ⟨hf, rfl⟩
  case h_12 hop hdk hsk =>
    obtain ⟨r, n, rfl, hf⟩ := fields_of_register_imm (op := 4) (dk := 1) (sk := 2) hop hdk hsk h
    exact ⟨hf, rfl⟩
  case h_13 hop hdk hsk =>
    obtain ⟨q, rfl, hf⟩ := fields_of_source (op := 5) (dk := 0) (sk := 1) hop hdk hsk h
    exact ⟨hf, rfl⟩
  case h_14 hop hdk hsk =>
    obtain ⟨n, rfl, hf⟩ := fields_of_imm (op := 5) (dk := 0) (sk := 2) hop hdk hsk h
    exact ⟨hf, rfl⟩
  case h_15 hop hdk hsk =>
    obtain ⟨q, rfl, hf⟩ := fields_of_source (op := 6) (dk := 0) (sk := 1) hop hdk hsk h
    exact ⟨hf, rfl⟩
  case h_16 hop hdk hsk =>
    obtain ⟨n, rfl, hf⟩ := fields_of_imm (op := 6) (dk := 0) (sk := 2) hop hdk hsk h
    exact ⟨hf, rfl⟩
  case h_17 => cases h

/-- Settles O3: the instruction's fields are the word's, and the word is what its fields pack to. -/
theorem decodedWordIsTheInstructionsWord : Obligations.DecodedWordIsTheInstructionsWord := by
  intro w i h
  obtain ⟨hf, hwf⟩ := fieldsOfInstr_of_instrOfFields h
  exact ⟨by rw [encode, hf, packDiw_unpackDiw], hwf⟩

/-! ### The executor's port for words (R97, R98) -/

theorem execWord_of_decode {w : BitVec 64} {i : Instr} (h : decode w = some i) (s : State) :
    execWord w s = exec i s := by
  rw [execWord, h]

theorem execWord_of_reserved {w : BitVec 64} (h : decode w = none) (s : State) :
    execWord w s = .refused .reservedWord := by
  rw [execWord, h]

/-- Settles O4: a word that decodes is the word of its instruction, and every instruction has its meaning; a word that
does not decode is no well-formed instruction's. -/
theorem reservedWordsAreRefused : Obligations.ReservedWordsAreRefused := by
  intro w s
  cases hd : decode w with
  | some i =>
    obtain ⟨hw, hwf⟩ := decodedWordIsTheInstructionsWord w i hd
    obtain ⟨t, ht, _⟩ := exec_cases i s
    rw [execWord_of_decode hd, ht]
    exact iff_of_false nofun (not_not_intro ⟨i, hwf, hw⟩)
  | none =>
    refine iff_of_true (execWord_of_reserved hd s) ?_
    rintro ⟨i, hwf, rfl⟩
    rw [wordOfInstructionDecodesToIt i hwf] at hd
    cases hd

/-! ### Addresses the word loses (R98) -/

/-- The address that is left of `a` in a word (log entry 3). -/
def storedAddr (a : Int) : Int := if addrInArray a then a else outsideAddr

theorem addrExact_storedAddr (a : Int) : addrExact (storedAddr a) = true := by
  unfold storedAddr addrExact
  split
  · next hin => rw [hin, Bool.true_or]
  · simp

theorem putAddr_storedAddr (f : DiwFields) (a : Int) : f.putAddr (storedAddr a) = f.putAddr a := by
  by_cases hin : addrInArray a = true
  · rw [storedAddr, if_pos hin]
  · have hout : ¬ addrInArray outsideAddr = true := by decide
    rw [storedAddr, if_neg hin, DiwFields.putAddr, DiwFields.putAddr, if_neg hin, if_neg hout]

/-- Where a word access is in range nothing is lost. -/
theorem storedAddr_of_inRangeWord {a : Int} (h : inRangeWord a) : storedAddr a = a := by
  have hin : addrInArray a = true := (addrInArray_iff a).mpr ⟨h.1, by have := h.2; omega⟩
  exact if_pos hin

/-- Where it is out of range, what is left of the address is out of range as well. -/
theorem not_inRangeWord_storedAddr {a : Int} (h : ¬ inRangeWord a) : ¬ inRangeWord (storedAddr a) := by
  unfold storedAddr
  split
  · exact h
  · decide

theorem loadRegister_storedAddr (r : Reg) (a : Int) (s : State) :
    loadRegister r (storedAddr a) s = loadRegister r a s := by
  by_cases h : inRangeWord a
  · rw [storedAddr_of_inRangeWord h]
  · rw [loadRegister_error h, loadRegister_error (not_inRangeWord_storedAddr h)]

theorem storeValue_storedAddr (a : Int) (src : Source) (s : State) :
    storeValue (storedAddr a) src s = storeValue a src s := by
  by_cases h : inRangeWord a
  · rw [storedAddr_of_inRangeWord h]
  · rw [storeValue_error h, storeValue_error (not_inRangeWord_storedAddr h)]

/-- The instruction that is left in the word. -/
def Instr.stored : Instr → Instr
  | .movRegMem r a => .movRegMem r (storedAddr a)
  | .movMemReg a q => .movMemReg (storedAddr a) q
  | .movMemImm a n => .movMemImm (storedAddr a) n
  | i => i

theorem Instr.stored_wellFormed (i : Instr) : i.stored.WellFormed := by
  cases i with
  | movRegMem _ a | movMemReg a _ | movMemImm a _ => exact addrExact_storedAddr a
  | _ => rfl

theorem encode_stored (i : Instr) : encode i.stored = encode i := by
  cases i with
  | movRegMem _ a | movMemReg a _ | movMemImm a _ => exact congrArg packDiw (putAddr_storedAddr _ a)
  | _ => rfl

/-- No instruction tells one out-of-range address from another. -/
theorem exec_stored (i : Instr) (s : State) : exec i.stored s = exec i s := by
  cases i with
  | movRegMem r a => exact loadRegister_storedAddr r a s
  | movMemReg a q => exact storeValue_storedAddr a (.reg q) s
  | movMemImm a n => exact storeValue_storedAddr a (.imm n) s
  | _ => rfl

theorem execWord_encode (i : Instr) (s : State) : execWord (encode i) s = exec i s := by
  rw [← encode_stored, execWord_of_decode (wordOfInstructionDecodesToIt _ i.stored_wellFormed), exec_stored]

/-- Settles O5: the word of an instruction executes as the instruction that is left in it, which executes as the
instruction does. -/
theorem wordExecutesAsItsInstruction : Obligations.WordExecutesAsItsInstruction := by
  refine ⟨execWord_encode, fun _ _ i i' s _ _ hword => ?sameWord⟩
  case sameWord => rw [← execWord_encode i, hword, execWord_encode]

/-! ### A word placed where the step fetches (log entry 11) -/

/-- The line placed for a legal word is the encoder's line of its instruction. -/
theorem lineOfTableWord_of_decode {w : BitVec 64} {i : Instr} (h : decode w = some i) :
    lineOfTableWord 64 w.toNat = encodeLine i := by
  have hw : BitVec.ofNat 64 (w.toNat % 2 ^ 64) = w := by
    rw [Nat.mod_eq_of_lt w.isLt, BitVec.ofNat_toNat, BitVec.setWidth_eq]
  have htable : decodeTableWord 64 w.toNat = some i := by
    rw [decodeTableWord, if_pos (by decide), hw, h]
  rw [lineOfTableWord, htable]

/-- Settles O60: the step fetches the placed line, which decodes to the word's instruction. -/
theorem placedWordIsTheNextInstruction : Obligations.PlacedWordIsTheNextInstruction := by
  intro s w i h
  have hfetch : fetchLine (s.withFetchWord 64 w.toNat) = some (encodeLine i) := by
    rw [← lineOfTableWord_of_decode h]
    rfl
  have hline : decodeLine (encodeLine i) = .instr i := lineOfInstructionDecodesToIt i
  have hquiet : hostQuiet (s.withFetchWord 64 w.toNat) := .inl rfl
  have hdue : (s.withFetchWord 64 w.toNat).lineDue = true := rfl
  rw [step_quiet hquiet, takeMove_nil rfl, schedulerStep_line hdue hfetch, runLine, hline]

end Sys2Proof
end

