-- ==== Sys2Proof/Proofs/MemoryUnit.lean ====
section
/-! The Memory Unit's word accesses of 20_memory.md (R42, R43, R47, R58): a word is its two bytes, and a word write
changes those two bytes alone. -/

namespace Sys2Proof

open Machine

/-- The byte above a word's address, where the word is in range. -/
theorem readByte_succ_ok {s : State} {a : Int} (h : inRangeWord a) :
    readByte s (a + 1) = .ok (s.mem.byteAt (a.toNat + 1)) := by
  obtain ⟨h0, h1⟩ := h
  rw [readByte_ok ⟨by omega, by omega⟩, show (a + 1).toNat = a.toNat + 1 by omega]

/-- The byte at a word's address, where the word is in range. -/
theorem readByte_of_word_ok {s : State} {a : Int} (h : inRangeWord a) : readByte s a = .ok (s.mem.byteAt a.toNat) :=
  readByte_ok ⟨h.1, by have := h.2; omega⟩

/-- Settles O16: in range both bytes exist, and the word is put together from them. -/
theorem readWordIsTwoBytes : Obligations.ReadWordIsTwoBytes := by
  intro s a
  refine ⟨fun h0 h1 => ?inRange, fun hout => readWord_error hout⟩
  case inRange =>
    have h : inRangeWord a := ⟨h0, h1⟩
    exact ⟨_, _, _, readByte_of_word_ok h, readByte_succ_ok h, readWord_ok h, wordOfBytes_toNat ..⟩

/-- To hold a word is to give it when it is read. -/
theorem holdsWord_iff {s : State} {a : Int} {v : Word} (h : inRangeWord a) :
    holdsWord a v s ↔ readWord s a = .ok v := by
  have hval := wordOfBytes_toNat (s.mem.byteAt a.toNat) (s.mem.byteAt (a.toNat + 1))
  have hlo := (s.mem.byteAt a.toNat).isLt
  rw [readWord_ok h, holdsWord, readByte_of_word_ok h, readByte_succ_ok h]
  constructor
  · rintro ⟨lo, hi, hblo, hbhi, hvlo, hvhi⟩
    injection hblo with hblo
    injection hbhi with hbhi
    rw [hblo, hbhi] at hval ⊢
    exact congrArg _ (BitVec.eq_of_toNat_eq (by omega))
  · intro hv
    injection hv with hv
    subst hv
    exact ⟨_, _, rfl, rfl, by omega, by omega⟩

/-- A word that was written is held. -/
theorem holdsWord_of_mem {s t : State} {a : Int} {v : Word} (h : inRangeWord a)
    (hm : t.mem = s.mem.setWord a.toNat v) : holdsWord a v t :=
  (holdsWord_iff h).mpr (readWord_of_mem h hm)

/-- A word write changes its word and nothing else, and records one write (R43, log entry 6). -/
theorem wroteWord_changes (s : State) {a : Int} (v : Word) (h : inRangeWord a) :
    changesOnlyRegsAndWord [] a s (wroteWord s a v) :=
  ⟨keepsRegsExcept_of_eq _ rfl, rfl, keepsMemoryExceptWord_of_mem h rfl, by simp [tellsHost],
    keepsSequencing_wroteWord s a v⟩

/-- Settles O18: the write holds its word and keeps the rest; the range check comes before the write. -/
theorem wordWriteTouchesTwoBytes : Obligations.WordWriteTouchesTwoBytes := by
  intro s a v
  refine ⟨fun h0 h1 => ?inRange, fun hout => writeWord_error hout⟩
  case inRange =>
    have h : inRangeWord a := ⟨h0, h1⟩
    exact ⟨_, writeWord_ok h, holdsWord_of_mem h rfl, wroteWord_changes s _ h⟩

/-- The word above a written one has the written high byte below an old byte. -/
theorem readWord_above_written {s t : State} {a : Int} {v : Word} (h : inRangeWord a) (h1 : inRangeWord (a + 1))
    (hm : t.mem = s.mem.setWord a.toNat v) :
    readWord t (a + 1) = .ok (wordOfBytes (highByte v) (s.mem.byteAt (a.toNat + 2))) := by
  have h0 := h.1
  rw [readWord_ok h1, hm, show (a + 1).toNat = a.toNat + 1 by omega, Memory.byteAt_setWord, if_pos rfl,
    Memory.byteAt_setWord, if_neg (by omega), if_neg (by omega)]

/-- The word below a written one has the written low byte above an old byte. -/
theorem readWord_below_written {s t : State} {a : Int} {v : Word} (h1 : inRangeWord (a - 1))
    (hm : t.mem = s.mem.setWord a.toNat v) :
    readWord t (a - 1) = .ok (wordOfBytes (s.mem.byteAt (a - 1).toNat) (lowByte v)) := by
  have h0 := h1.1
  rw [readWord_ok h1, hm, show (a - 1).toNat + 1 = a.toNat by omega, Memory.byteAt_setWord, if_neg (by omega),
    if_neg (by omega), Memory.byteAt_setWord, if_neg (by omega), if_pos rfl]

/-- Settles O17: the word itself reads back, and each overlapping word has one written byte and one old one. -/
theorem writtenWordReadsBack : Obligations.WrittenWordReadsBack := by
  intro s a v h0 h1
  have h : inRangeWord a := ⟨h0, h1⟩
  refine ⟨_, writeWord_ok h, readWord_of_mem h rfl, fun habove => ?above, fun hbelow => ?below⟩
  case above =>
    have hb : readByte s (a + 2) = .ok (s.mem.byteAt (a.toNat + 2)) := by
      rw [readByte_ok ⟨by omega, by omega⟩, show (a + 2).toNat = a.toNat + 2 by omega]
    refine ⟨_, _, hb, readWord_above_written h ⟨by omega, habove⟩ rfl, ?_⟩
    rw [wordOfBytes_toNat, highByte_toNat]
  case below =>
    refine ⟨_, _, readByte_ok ⟨hbelow, by omega⟩, readWord_below_written ⟨hbelow, by omega⟩ rfl, ?_⟩
    rw [wordOfBytes_toNat, lowByte_toNat]

end Sys2Proof
end

