-- ==== Sys2Proof/Proofs/DataMovement.lean ====
section
/-! `mov`, `push` and `pop` of 40_data_movement.md: each form completes with its effect and its frame, or fails where
its address is out of range. -/

namespace Sys2Proof

open Machine

/-! ### Frames of the moments and of one register write -/

theorem changesOnlyRegsAndWord_moment {rs : List Reg} {a : Int} {s t : State} (h : changesOnlyRegsAndWord rs a s t) :
    changesOnlyRegsAndWord rs a s (moment t) := by
  obtain ⟨hregs, hflags, hmem, htells, hseq⟩ := h
  exact ⟨hregs, hflags, hmem, tellsHost_moment.mpr htells, hseq⟩

/-- A register write changes its register and nothing else. -/
theorem setRegister_changes (s : State) (r : Reg) (v : Int) : changesOnlyRegs [r] s (moment (setRegister s r v)) :=
  ⟨keepsRegsExcept_of_set rfl, rfl, keepsMemory_of_eq rfl, tellsHost_moment.mpr (tellsHost_of_eq rfl),
    keepsSequencing_setRegister s r v⟩

/-- A register holds a word that was written to it. -/
theorem getRegister_setRegister_intOf (s : State) (r : Reg) (v : Word) :
    getRegister (setRegister s r (intOf v)) r = v := by
  rw [getRegister_setRegister, if_pos rfl, wrap16_intOf]

/-! ### `mov` (R111 to R113) -/

theorem moveToRegister_completes (r : Reg) (src : Source) (s : State) :
    ∃ t, moveToRegister r src s = .next t ∧ getRegister t r = value s src ∧ changesOnlyRegs [r] s t :=
  ⟨_, moveToRegister_eq r src s, getRegister_setRegister_intOf s r _, setRegister_changes s r _⟩

/-- Settles O24: both forms write the value of their source. -/
theorem movToRegisterCompletes : Obligations.MovToRegisterCompletes := fun r q n s =>
  ⟨moveToRegister_completes r (.reg q) s, moveToRegister_completes r (.imm n) s⟩

/-- Settles O25: the register holds the word that is read at the address, and memory holds that word there. -/
theorem loadCompletes : Obligations.LoadCompletes := by
  intro r a s h0 h1
  have h : inRangeWord a := ⟨h0, h1⟩
  refine ⟨_, loadRegister_ok h, ?held, setRegister_changes s r _⟩
  case held => rw [holdsWord_iff h, getRegister_moment, getRegister_setRegister_intOf, readWord_ok h]

theorem storeValue_completes {a : Int} (src : Source) (s : State) (h : inRangeWord a) :
    ∃ t, storeValue a src s = .next t ∧ holdsWord a (value s src) t ∧ changesOnlyRegsAndWord [] a s t :=
  ⟨_, storeValue_ok h, holdsWord_of_mem (s := s) h rfl, changesOnlyRegsAndWord_moment (wroteWord_changes s _ h)⟩

/-- Settles O26: both forms write the value of their source. -/
theorem storeCompletes : Obligations.StoreCompletes := fun _ q n s h0 h1 =>
  ⟨storeValue_completes (.reg q) s ⟨h0, h1⟩, storeValue_completes (.imm n) s ⟨h0, h1⟩⟩

/-- Settles O27: the range check of the Memory Unit fails before anything is written. -/
theorem movOutOfRangeFails : Obligations.MovOutOfRangeFails := fun _ _ _ _ hout =>
  ⟨loadRegister_error hout, storeValue_error hout, storeValue_error hout⟩

/-! ### `push` and `pop` (R115 to R118) -/

/-- The decrement of a push, modulo 65536. -/
theorem pushAddress_toNat (s : State) : (pushAddress s).toNat = ((getRegister s .sp).toNat + 65534) % 65536 := by
  have hwrap := intOf_wrap16 (intOf (getRegister s .sp) - 2)
  simp only [pushAddress, intOf] at hwrap ⊢
  omega

/-- The increment of a pop, modulo 65536. -/
theorem toNat_wrap16_add_two (v : Word) : (wrap16 (intOf v + 2)).toNat = (v.toNat + 2) % 65536 :=
  toNat_wrap16_natCast (v.toNat + 2)

/-- A push lowers `sp` and holds the operand's old value there (D8). -/
theorem pushValue_completes (src : Source) (s : State) :
    ∃ t, pushValue src s = .next t ∧ pushEffect (value s src) s t := by
  have h : inRangeWord (intOf (pushAddress s)) := inRangeWord_word _
  have hsp : getRegister (setRegister s .sp (intOf (getRegister s .sp) - 2)) .sp = pushAddress s := by
    rw [getRegister_setRegister, if_pos rfl, pushAddress]
  refine ⟨_, pushValue_eq src s, ?spValue, hsp, holdsWord_of_mem (s := s) h rfl, ?frame, ?shown⟩
  case spValue =>
    rw [← pushAddress_toNat, ← hsp]
    rfl
  case frame =>
    exact ⟨keepsRegsExcept_of_set rfl, rfl, keepsMemoryExceptWord_of_mem h rfl, by simp [tellsHost],
      rfl, rfl, rfl, rfl, rfl, rfl, rfl⟩
  case shown => exact mayBeShown_of_prefix le_rfl (List.append_assoc ..)

/-- Settles O28: both forms push the value of their source. -/
theorem pushCompletes : Obligations.PushCompletes := fun q n s =>
  ⟨pushValue_completes (.reg q) s, pushValue_completes (.imm n) s⟩

theorem readWord_popAddress (s : State) : readWord s (intOf (popAddress s)) = .ok (poppedWord s) :=
  readWord_ok (inRangeWord_word _)

/-- The registers after a pop: the popped word goes to its register before `sp` is read again (R118). -/
theorem getRegister_popped (r q : Reg) (v : Word) (s : State) :
    getRegister (bumpSp (moment (setRegister s r (intOf v)))) q =
      if q = .sp then wrap16 (intOf (if r = .sp then v else getRegister s .sp) + 2)
      else if q = r then v else getRegister s q := by
  rw [bumpSp, getRegister_setRegister, getRegister_moment, getRegister_moment, getRegister_setRegister,
    getRegister_setRegister, wrap16_intOf]
  simp only [eq_comm]

/-- Settles O29: the word at the old `sp` is the one written, and `sp` goes up from what it then holds. -/
theorem popCompletes : Obligations.PopCompletes := by
  intro r s
  refine ⟨_, _, popRegister_eq r s, readWord_popAddress s, fun hr => ⟨?popped, ?bumped⟩, fun hr => ?intoSp, ?frame,
    ?shown⟩
  case popped => rw [getRegister_moment, getRegister_popped, if_neg hr, if_pos rfl]
  case bumped => rw [getRegister_moment, getRegister_popped, if_pos rfl, if_neg hr, toNat_wrap16_add_two]
  case intoSp => rw [getRegister_moment, getRegister_popped, if_pos rfl, if_pos hr, toNat_wrap16_add_two]
  case frame =>
    exact ⟨(completed_pop r s).regs, rfl, keepsMemory_of_eq rfl, by simp [tellsHost], (completed_pop r s).sequencing⟩
  case shown => exact mayBeShown_of_prefix le_rfl rfl

/-- Settles O30: the pop reads where the push stored, because the push left `sp` there; and lowering `sp` by 2 and
raising it by 2 cancel. -/
theorem pushThenPopMovesTheValue : Obligations.PushThenPopMovesTheValue := by
  intro q r s _ hr
  obtain ⟨⟨t, hpush, hspNat, hsp, hheld, ⟨hregs, hflags, _⟩, _⟩, _⟩ := pushCompletes q 0 s
  obtain ⟨u, v, hpop, hread, hother, _, ⟨hregs', hflags', hmem', _⟩, _⟩ := popCompletes r t
  obtain ⟨hur, husp⟩ := hother hr
  have hv : v = getRegister s q := by
    rw [holdsWord_iff (inRangeWord_word _), ← hsp] at hheld
    injection hread.symm.trans hheld
  have hspRestored : getRegister u .sp = getRegister s .sp := by
    apply BitVec.eq_of_toNat_eq
    have := (getRegister s .sp).isLt
    omega
  refine ⟨t, u, hpush, hpop, hur.trans hv, hspRestored, fun p hp => ?regs, hflags'.trans hflags, ?held⟩
  case regs =>
    rw [List.mem_singleton] at hp
    by_cases hpsp : p = .sp
    · rw [hpsp, hspRestored]
    · exact (hregs' p (by simp [hp, hpsp])).trans (hregs p (by simp [hpsp]))
  case held =>
    rw [← pushAddress_toNat]
    obtain ⟨lo, hi, hlo, hhi, hvals⟩ := hheld
    exact ⟨lo, hi, (hmem' _).trans hlo, (hmem' _).trans hhi, hvals⟩

end Sys2Proof
end

