-- ==== Sys2Proof/Proofs/Arithmetic.lean ====
section
/-! `add`, `sub`, `mul` and `div` of 41_arithmetic.md: what the ALU's outputs say of the signed and the unsigned
outcome, and what each instruction leaves. -/

namespace Sys2Proof

open Machine

/-! ### The ALU's outputs (R131, R132, R134, R140) -/

theorem aluAdd_r_toNat (a b : Word) : (aluAdd a b).r.toNat = (a.toNat + b.toNat) % 65536 :=
  toNat_wrap16_natCast (a.toNat + b.toNat)

theorem aluSub_r_toNat (a b : Word) : (aluSub a b).r.toNat = (a.toNat + (65536 - b.toNat)) % 65536 := by
  have hb := b.isLt
  have hwrap := intOf_wrap16 (intOf a - intOf b)
  rw [aluSub_r]
  simp only [intOf] at hwrap ⊢
  omega

/-- The sign of the stored sum is wrong exactly when the signed sum does not fit. -/
theorem aluAdd_overflow_iff (a b : Word) :
    (aluAdd a b).overflow = true ↔
      ¬ (-32768 ≤ signedReading a + signedReading b ∧ signedReading a + signedReading b ≤ 32767) := by
  have ha := a.isLt
  have hb := b.isLt
  rw [aluAdd_overflow, decide_eq_true_iff, signBit_eq, signBit_eq, signBit_eq, Ne, decide_eq_decide, decide_eq_decide,
    aluAdd_r_toNat, signedReading, signedReading]
  split <;> split <;> omega

/-- The sign of the stored difference is wrong exactly when the signed difference does not fit. -/
theorem aluSub_overflow_iff (a b : Word) :
    (aluSub a b).overflow = true ↔
      ¬ (-32768 ≤ signedReading a - signedReading b ∧ signedReading a - signedReading b ≤ 32767) := by
  have ha := a.isLt
  have hb := b.isLt
  rw [aluSub_overflow, decide_eq_true_iff, signBit_eq, signBit_eq, signBit_eq, Ne, decide_eq_decide, decide_eq_decide,
    aluSub_r_toNat, signedReading, signedReading]
  split <;> split <;> omega

theorem aluAdd_raw_eq_iff (a b : Word) :
    (aluAdd a b).raw = (aluAdd a b).r.toNat ↔ (aluAdd a b).carry = false := by
  have ha := a.isLt
  have hb := b.isLt
  rw [aluAdd_carry, decide_eq_false_iff_not, aluAdd_r_toNat, aluAdd_raw]
  simp only [intOf]
  omega

theorem aluSub_raw_eq_iff (a b : Word) :
    (aluSub a b).raw = (aluSub a b).r.toNat ↔ (aluSub a b).carry = false := by
  have ha := a.isLt
  have hb := b.isLt
  rw [aluSub_carry, decide_eq_false_iff_not, aluSub_r_toNat, aluSub_raw]
  simp only [intOf]
  omega

/-- Settles O23: overflow, carry and the raw result of a sum, then those of a difference. -/
theorem overflowIsTheSignedOutcome : Obligations.OverflowIsTheSignedOutcome := by
  intro a b
  refine ⟨aluAdd_overflow_iff a b, ?carry, aluAdd_raw_eq_iff a b, aluSub_overflow_iff a b, ?borrow,
    aluSub_raw_eq_iff a b⟩
  case carry => rw [aluAdd_carry, decide_eq_true_iff, Nat.lt_iff_add_one_le]
  case borrow => rw [aluSub_carry, decide_eq_true_iff]

/-- Settles O22: division with remainder of the two numbers. -/
theorem aluDivision : Obligations.AluDivision := by
  intro a b hb
  have hpos : 0 < b.toNat := Nat.pos_of_ne_zero fun h0 => hb (BitVec.eq_of_toNat_eq h0)
  exact ⟨rfl, rfl, (Nat.div_add_mod ..).symm, aluDiv_fits a b, Nat.mod_lt _ hpos⟩

/-! ### `add` and `sub` (R135, R136) -/

@[simp] theorem getRegister_writeSum (r : Reg) (o : AluSum) (s : State) : getRegister (writeSum r o s) r = o.r := by
  rw [getRegister_eq, writeSum_regs, Regs.get_set_same, wrap16_intOf]

/-- The flags folded from a raw result are those of the stored one. -/
theorem writeSum_resultFlags (r : Reg) {o : AluSum} (s : State) (h : wrap16 o.raw = o.r) :
    resultFlags o.r s (writeSum r o s) := by
  refine ⟨?zero, ?sign, ?parity, rfl, rfl⟩
  all_goals rw [writeSum_flags]
  case zero => exact decide_eq_decide.mpr (by rw [h]; exact BitVec.toNat_inj.symm)
  case sign => rw [← signBit_eq, ← h]; rfl
  case parity => rw [foldFlags_PF, h, popcount_lowByte]

theorem writeSum_changes (r : Reg) (o : AluSum) (s : State) : changesOnlyRegsAndFlags [r] s (writeSum r o s) :=
  ⟨keepsRegsExcept_of_set rfl, keepsMemory_of_eq rfl, by simp [tellsHost, writeSum], rfl, rfl, rfl, rfl, rfl, rfl, rfl⟩

theorem addToRegister_completes (r : Reg) (src : Source) (s : State) :
    ∃ t, addToRegister r src s = .next t ∧ addEffect r (value s src) s t := by
  refine ⟨_, rfl, ?_⟩
  rw [addEffect, getRegister_writeSum]
  exact ⟨aluAdd_r_toNat .., aluAdd_carry .., aluAdd_overflow .., writeSum_resultFlags r s rfl, writeSum_changes r _ s⟩

theorem subFromRegister_completes (r : Reg) (src : Source) (s : State) :
    ∃ t, subFromRegister r src s = .next t ∧ subEffect r (value s src) s t := by
  refine ⟨_, rfl, ?_⟩
  rw [subEffect, getRegister_writeSum]
  exact ⟨aluSub_r_toNat .., aluSub_carry .., aluSub_overflow .., writeSum_resultFlags r s rfl, writeSum_changes r _ s⟩

/-- Settles O31: both forms add the value of their source. -/
theorem addCompletes : Obligations.AddCompletes := fun r q n s =>
  ⟨addToRegister_completes r (.reg q) s, addToRegister_completes r (.imm n) s⟩

/-- Settles O32: both forms subtract the value of their source. -/
theorem subCompletes : Obligations.SubCompletes := fun r q n s =>
  ⟨subFromRegister_completes r (.reg q) s, subFromRegister_completes r (.imm n) s⟩

/-! ### `mul` (R137) -/

@[simp] theorem getRegister_writeProduct (o : AluProduct) (s : State) : getRegister (writeProduct o s) .ax = o.r := by
  rw [getRegister_eq, writeProduct_regs, Regs.get_set_same, wrap16_intOf]

theorem mulAx_completes (src : Source) (s : State) : ∃ t, mulAx src s = .next t ∧ mulEffect (value s src) s t := by
  refine ⟨_, rfl, ?product, rfl, rfl, rfl, rfl, rfl, rfl, rfl, ?frame⟩
  case product => rw [getRegister_writeProduct, aluMul_r_toNat, aluMul_p]
  case frame =>
    exact ⟨keepsRegsExcept_of_set rfl, keepsMemory_of_eq rfl, by simp [tellsHost, writeProduct],
      rfl, rfl, rfl, rfl, rfl, rfl, rfl⟩

/-- Settles O33: both forms multiply by the value of their source. -/
theorem mulCompletes : Obligations.MulCompletes := fun q n s =>
  ⟨mulAx_completes (.reg q) s, mulAx_completes (.imm n) s⟩

/-! ### `div` (R138) -/

@[simp] theorem getRegister_writeQuotient_ax (o : AluQuotient) (s : State) :
    getRegister (writeQuotient o s) .ax = wrap16 o.q := by
  rw [getRegister_eq, writeQuotient_regs, Regs.get_set_other _ _ (by decide), Regs.get_set_same]

@[simp] theorem getRegister_writeQuotient_dx (o : AluQuotient) (s : State) :
    getRegister (writeQuotient o s) .dx = wrap16 o.m := by
  rw [getRegister_eq, writeQuotient_regs, Regs.get_set_same]

/-- Quotient and remainder fit a word, so that nothing is lost where they are written. -/
theorem divAx_completes {src : Source} {s : State} (h : value s src ≠ 0) :
    ∃ t, divAx src s = .next t ∧ divEffect (value s src) s t := by
  obtain ⟨_, _, _, hq, hm⟩ := aluDivision (getRegister s .ax) (value s src) h
  have hb := (value s src).isLt
  refine ⟨_, divAx_nonzero h, ?quotient, ?remainder, ?frame, mayBeShown_of_prefix le_rfl rfl⟩
  case quotient =>
    rw [getRegister_writeQuotient_ax, toNat_wrap16_natCast, Nat.mod_eq_of_lt (Nat.lt_of_le_of_lt hq (by decide)),
      aluDiv]
  case remainder =>
    rw [getRegister_writeQuotient_dx, toNat_wrap16_natCast, Nat.mod_eq_of_lt (hm.trans hb), aluDiv]
  case frame =>
    obtain ⟨hregs, hseq, hflags, _⟩ :=
      completed_quotient (.divImm 0) (aluDiv (getRegister s .ax) (value s src)) s rfl rfl
    exact ⟨hregs, hflags, keepsMemory_of_eq rfl, by simp [tellsHost, writeQuotient], hseq⟩

/-- Settles O34: both forms divide by the value of their source. -/
theorem divCompletes : Obligations.DivCompletes := fun q n _ =>
  ⟨divAx_completes (src := .reg q), divAx_completes (src := .imm n)⟩

theorem keepsStores_raise (e : ErrorKind) (s : State) : keepsStores s (raise e s) := ⟨rfl, rfl, rfl⟩

/-- Settles O35: the divisor is tested before anything is written. -/
theorem divideByZeroFails : Obligations.DivideByZeroFails := fun q _ =>
  ⟨divAx_zero (src := .reg q), divAx_zero (src := .imm 0) rfl, keepsStores_raise ..⟩

end Sys2Proof
end

