-- ==== Sys2Proof/Proofs/EveryInstruction.lean ====
section
/-! What holds of all instructions alike: they answer (R181), fail precisely (R110, R182) and never with a division
overflow (R143), keep to their rows of the tables of R13, R22 and R50, and do not sequence (R14, R163). -/

namespace Sys2Proof

open Machine

/-- An outcome has one next state. -/
theorem next_inj {o : Result} {t t' : State} (h : o = .next t) (h' : o = .next t') : t = t' := by
  injection h.symm.trans h'

/-- The way an instruction has ended, from the state it has left. -/
theorem endsIn_of_exec {i : Instr} {s t : State} (h : exec i s = .next t) : EndsIn i s t := by
  obtain ⟨t', ht', hends⟩ := exec_cases i s
  exact next_inj h ht' ▸ hends

/-- Settles O37: failing is a next state too. -/
theorem everyInstructionAnswersNext : Obligations.EveryInstructionAnswersNext := by
  intro i s
  obtain ⟨t, ht, _⟩ := exec_cases i s
  exact ⟨t, ht⟩

/-- Settles O38: a completed instruction leaves the scheduler's state, so it is the failure that has halted it. -/
theorem failingInstructionChangesNothing : Obligations.FailingInstructionChangesNothing := by
  intro i s t hs hexec hhalted
  cases endsIn_of_exec hexec with
  | failed e hc => exact ⟨hc.kind.imp (congrArg (raise · s)) (congrArg (raise · s)), keepsStores_raise e s, rfl⟩
  | completed _ hc =>
    obtain ⟨hsched, _⟩ := hc.sequencing
    exact absurd (hsched.symm.trans hhalted) hs

/-- The record of the error hook tells the kinds apart. -/
theorem errorCalls_raise (e : ErrorKind) (s : State) :
    errorCalls (raise e s).hooks = errorCalls s.hooks ++ [.error (s.lc + 1) e] := by simp

/-- Settles O36: an instruction that has completed has no new error on record, and one that has failed has one of
another kind. -/
theorem divisionOverflowIsUnreachable : Obligations.DivisionOverflowIsUnreachable := by
  intro i s hraise
  have hends := endsIn_of_exec hraise
  have hrecord := errorCalls_raise .divisionOverflow s
  generalize raise .divisionOverflow s = t at hends hrecord
  cases hends with
  | completed _ hc => simp [hc.errors] at hrecord
  | failed e hc =>
    have he : e = .divisionOverflow := by simpa using hrecord
    rcases hc.kind with hkind | hkind <;> rw [hkind] at he <;> cases he

/-! ### The write tables (R13, R22, R50) -/

theorem keepsRegsExcept_writes {i : Instr} {s t : State} (h : exec i s = .next t) : keepsRegsExcept i.writes s t := by
  cases endsIn_of_exec h with
  | failed e _ => exact keepsRegsExcept_of_eq _ rfl
  | completed _ hc => exact hc.regs

/-- Settles O39: the rule for `ip` is the rule for every register. -/
theorem registerWriteTable : Obligations.RegisterWriteTable := fun _ _ _ hexec =>
  ⟨keepsRegsExcept_writes hexec, keepsRegsExcept_writes hexec .ip⟩

/-- The flags follow their row, a failing instruction's too: it has the empty one. -/
theorem flagsFollow_of_exec {i : Instr} {s t : State} (h : exec i s = .next t) :
    FlagsFollow i.flagRow s.flags t.flags := by
  cases endsIn_of_exec h with
  | failed e hc => rw [hc.flagRow]; rfl
  | completed _ hc => exact hc.flags

/-- Settles O41: each clause is what its row of R22 says. -/
theorem flagWriteTable : Obligations.FlagWriteTable := by
  intro i s t hexec
  have hf := flagsFollow_of_exec hexec
  refine ⟨hf.direction, fun hrow => ?noFlag, fun hrow => ?carryOverflow, fun hrow => ?all⟩
  all_goals rw [hrow] at hf
  case noFlag => exact hf
  case carryOverflow => exact hf
  case all =>
    obtain ⟨haux, _⟩ := hf
    exact haux

/-- Settles O42: a failing instruction keeps memory whichever it is. -/
theorem memoryWriteTable : Obligations.MemoryWriteTable := by
  intro i s t hexec hstores
  cases endsIn_of_exec hexec with
  | failed e _ => rfl
  | completed _ hc => exact hc.memory hstores

/-- Settles O43: failing is the only way to sequence. -/
theorem instructionsDoNotSequence : Obligations.InstructionsDoNotSequence := by
  intro i s t hexec hs
  cases endsIn_of_exec hexec with
  | failed e _ => exact absurd rfl hs
  | completed _ hc => exact hc.sequencing

/-! ### The read table (R13)

Two states in which a run is in progress, with the same memory; what an instruction reads of the registers is the same
in both. -/

/-- The outcomes fail alike, and where they do not they agree on some registers. -/
def AgreeOn (rs : List Reg) (o o' : Result) : Prop :=
  ∃ t t', o = .next t ∧ o' = .next t' ∧ t.sched = t'.sched
    ∧ (t.sched = .running → ∀ q ∈ rs, getRegister t q = getRegister t' q)

/-- Two failures agree, because neither leaves a run. -/
theorem agreeOn_raise (rs : List Reg) (e : ErrorKind) (s s' : State) :
    AgreeOn rs (.next (raise e s)) (.next (raise e s')) :=
  ⟨_, _, rfl, rfl, rfl, fun h => nomatch h⟩

section ReadTable

variable {s s' : State}

theorem moveToRegister_agree (r : Reg) {src : Source} (hs : s.sched = s'.sched) (hv : value s src = value s' src) :
    AgreeOn [r] (moveToRegister r src s) (moveToRegister r src s') := by
  refine ⟨_, _, rfl, rfl, hs, fun _ q hq => ?_⟩
  rw [List.mem_singleton.mp hq, getRegister_moment, getRegister_moment, getRegister_setRegister_intOf,
    getRegister_setRegister_intOf, hv]

theorem loadRegister_agree (r : Reg) (a : Int) (hs : s.sched = s'.sched) (hm : s.mem = s'.mem) :
    AgreeOn [r] (loadRegister r a s) (loadRegister r a s') := by
  by_cases h : inRangeWord a
  · refine ⟨_, _, loadRegister_ok h, loadRegister_ok h, hs, fun _ q hq => ?_⟩
    rw [List.mem_singleton.mp hq, getRegister_moment, getRegister_moment, getRegister_setRegister_intOf,
      getRegister_setRegister_intOf, hm]
  · rw [loadRegister_error h, loadRegister_error h]
    exact agreeOn_raise ..

theorem storeValue_agree (a : Int) (src : Source) (hs : s.sched = s'.sched) :
    AgreeOn [] (storeValue a src s) (storeValue a src s') := by
  by_cases h : inRangeWord a
  · exact ⟨_, _, storeValue_ok h, storeValue_ok h, hs, fun _ _ hq => absurd hq List.not_mem_nil⟩
  · rw [storeValue_error h, storeValue_error h]
    exact agreeOn_raise ..

theorem pushAddress_congr (hsp : getRegister s .sp = getRegister s' .sp) : pushAddress s = pushAddress s' := by
  rw [pushAddress, hsp, pushAddress]

theorem pushValue_agree (src : Source) (hs : s.sched = s'.sched) (hsp : getRegister s .sp = getRegister s' .sp) :
    AgreeOn [.sp] (pushValue src s) (pushValue src s') := by
  obtain ⟨t, ht, _, hspt, _, ⟨_, _, _, _, hseq⟩, _⟩ := pushValue_completes src s
  obtain ⟨t', ht', _, hspt', _, ⟨_, _, _, _, hseq'⟩, _⟩ := pushValue_completes src s'
  obtain ⟨hsched, _⟩ := hseq
  obtain ⟨hsched', _⟩ := hseq'
  refine ⟨t, t', ht, ht', by rw [hsched, hsched', hs], fun _ q hq => ?_⟩
  rw [List.mem_singleton.mp hq, hspt, hspt', pushAddress_congr hsp]

theorem popRegister_agree (r : Reg) (hs : s.sched = s'.sched) (hm : s.mem = s'.mem)
    (hsp : getRegister s .sp = getRegister s' .sp) : AgreeOn [r, .sp] (popRegister r s) (popRegister r s') := by
  have hpopped : poppedWord s = poppedWord s' := by rw [poppedWord, hm, hsp, poppedWord]
  refine ⟨_, _, popRegister_eq r s, popRegister_eq r s', hs, fun _ q hq => ?_⟩
  rw [getRegister_moment, getRegister_moment, getRegister_popped, getRegister_popped, hpopped, hsp]
  rcases List.mem_pair.mp hq with rfl | rfl <;> rw [if_pos rfl, if_pos rfl]

theorem writeSum_agree (r : Reg) (o : AluSum) (hs : s.sched = s'.sched) :
    AgreeOn [r] (.next (writeSum r o s)) (.next (writeSum r o s')) := by
  refine ⟨_, _, rfl, rfl, hs, fun _ q hq => ?_⟩
  rw [List.mem_singleton.mp hq, getRegister_writeSum, getRegister_writeSum]

theorem addToRegister_agree (r : Reg) {src : Source} (hs : s.sched = s'.sched)
    (hr : getRegister s r = getRegister s' r) (hv : value s src = value s' src) :
    AgreeOn [r] (addToRegister r src s) (addToRegister r src s') := by
  rw [addToRegister, addToRegister, hr, hv]
  exact writeSum_agree r _ hs

theorem subFromRegister_agree (r : Reg) {src : Source} (hs : s.sched = s'.sched)
    (hr : getRegister s r = getRegister s' r) (hv : value s src = value s' src) :
    AgreeOn [r] (subFromRegister r src s) (subFromRegister r src s') := by
  rw [subFromRegister, subFromRegister, hr, hv]
  exact writeSum_agree r _ hs

theorem mulAx_agree {src : Source} (hs : s.sched = s'.sched) (hax : getRegister s .ax = getRegister s' .ax)
    (hv : value s src = value s' src) : AgreeOn [.ax] (mulAx src s) (mulAx src s') := by
  rw [mulAx, mulAx, hax, hv]
  refine ⟨_, _, rfl, rfl, hs, fun _ q hq => ?_⟩
  rw [List.mem_singleton.mp hq, getRegister_writeProduct, getRegister_writeProduct]

/-- Both states divide by 0, or neither does. -/
theorem divAx_agree {src : Source} (hs : s.sched = s'.sched) (hax : getRegister s .ax = getRegister s' .ax)
    (hv : value s src = value s' src) : AgreeOn [.ax, .dx] (divAx src s) (divAx src s') := by
  by_cases h : value s src = 0
  · rw [divAx_zero h, divAx_zero (hv ▸ h)]
    exact agreeOn_raise ..
  · rw [divAx_nonzero h, divAx_nonzero (hv ▸ h), hax, hv]
    refine ⟨_, _, rfl, rfl, hs, fun _ q hq => ?_⟩
    rcases List.mem_pair.mp hq with rfl | rfl
    · rw [getRegister_writeQuotient_ax, getRegister_writeQuotient_ax]
    · rw [getRegister_writeQuotient_dx, getRegister_writeQuotient_dx]

/-- The row of reads holds each register an instruction's result depends on. -/
theorem exec_agree (i : Instr) (hs : s.sched = s'.sched) (hm : s.mem = s'.mem)
    (hr : ∀ q ∈ i.reads, getRegister s q = getRegister s' q) : AgreeOn i.writes (exec i s) (exec i s') := by
  cases i with
  | movRegReg r q => exact moveToRegister_agree r (src := .reg q) hs (hr q (by simp [Instr.reads]))
  | movRegImm r n => exact moveToRegister_agree r (src := .imm n) hs rfl
  | movRegMem r a => exact loadRegister_agree r a hs hm
  | movMemReg a q => exact storeValue_agree a (.reg q) hs
  | movMemImm a n => exact storeValue_agree a (.imm n) hs
  | pushReg q => exact pushValue_agree (.reg q) hs (hr .sp (by simp [Instr.reads]))
  | pushImm n => exact pushValue_agree (.imm n) hs (hr .sp (by simp [Instr.reads]))
  | popReg r => exact popRegister_agree r hs hm (hr .sp (by simp [Instr.reads]))
  | addRegReg r q =>
    exact addToRegister_agree r (src := .reg q) hs (hr r (by simp [Instr.reads])) (hr q (by simp [Instr.reads]))
  | addRegImm r n => exact addToRegister_agree r (src := .imm n) hs (hr r (by simp [Instr.reads])) rfl
  | subRegReg r q =>
    exact subFromRegister_agree r (src := .reg q) hs (hr r (by simp [Instr.reads])) (hr q (by simp [Instr.reads]))
  | subRegImm r n => exact subFromRegister_agree r (src := .imm n) hs (hr r (by simp [Instr.reads])) rfl
  | mulReg q => exact mulAx_agree (src := .reg q) hs (hr .ax (by simp [Instr.reads])) (hr q (by simp [Instr.reads]))
  | mulImm n => exact mulAx_agree (src := .imm n) hs (hr .ax (by simp [Instr.reads])) rfl
  | divReg q => exact divAx_agree (src := .reg q) hs (hr .ax (by simp [Instr.reads])) (hr q (by simp [Instr.reads]))
  | divImm n => exact divAx_agree (src := .imm n) hs (hr .ax (by simp [Instr.reads])) rfl

end ReadTable

/-- Settles O40: the two outcomes are the two states, and they agree. -/
theorem registerReadTable : Obligations.RegisterReadTable := by
  intro i s s' t t' hs hs' hm hr hexec hexec'
  obtain ⟨u, u', hu, hu', hsched, hregs⟩ := exec_agree i (hs.trans hs'.symm) hm hr
  obtain rfl := next_inj hexec hu
  obtain rfl := next_inj hexec' hu'
  exact ⟨hsched, hregs⟩

end Sys2Proof
end

