-- ==== Sys2Proof/Proofs/Steps.lean ====
section
/-! One step of the machine (R163, R186): the line it processes, where the cursor settles after it, what a failure
leaves, and the host's calls `run`, `stop` and `reset()` (60_exceptions.md, 70_reset_and_hazards.md). -/

namespace Sys2Proof

open Machine

/-! ### The line at the cursor -/

/-- The step where a line is due is that line. -/
theorem step_line {s : State} {line : Text} (hd : s.lineDue = true) (hq : hostQuiet s)
    (hf : fetchLine s = some line) : step s = runLine line (takeMove s) := by
  rw [step_quiet hq]
  exact schedulerStep_line (s := takeMove s) hd hf

theorem step_of_noOp {s : State} {line : Text} (hd : s.lineDue = true) (hq : hostQuiet s)
    (hf : fetchLine s = some line) (hline : decodeLine line = .noOp) : step s = .next (advanceLine (takeMove s)) := by
  rw [step_line hd hq hf, runLine, hline]

/-- Settles O47: the line fails on the state before it. -/
theorem illegalLineHalts : Obligations.IllegalLineHalts := by
  intro s line e hd hq hf hline
  rw [step_line hd hq hf, runLine, hline]

theorem step_of_instr {s : State} {line : Text} {i : Instr} (hd : s.lineDue = true) (hq : hostQuiet s)
    (hf : fetchLine s = some line) (hline : decodeLine line = .instr i) :
    step s = runInstruction i (takeMove s) := by
  rw [step_line hd hq hf, runLine, hline]

theorem runInstruction_next {i : Instr} {s t : State} (h : exec i s = .next t) :
    runInstruction i s = .next (finishInstruction t) := by
  rw [runInstruction, h]

theorem runInstruction_failed {i : Instr} {s t : State} (h : exec i s = .next t) (hs : t.sched = .haltedError) :
    runInstruction i s = .next t := by
  rw [runInstruction_next h, finishInstruction, if_pos hs]

theorem runInstruction_completed {i : Instr} {s t : State} (h : exec i s = .next t) (hs : t.sched ≠ .haltedError) :
    runInstruction i s = .next (advanceLine (publishSnapshot t)) := by
  rw [runInstruction_next h, finishInstruction, if_neg hs]

/-- Settles O44: the step is the instruction, and then what follows each of its outcomes. -/
theorem stepRunsTheDecodedInstruction : Obligations.StepRunsTheDecodedInstruction := by
  intro s line i hd hq hf hline
  rw [step_of_instr hd hq hf hline]
  refine ⟨fun t => runInstruction_failed, fun t => runInstruction_completed, fun f hexec => ?fault,
    fun r hexec => ?refused⟩
  case fault => rw [runInstruction, hexec]
  case refused => rw [runInstruction, hexec]

/-! ### Where the cursor settles (R166, R185, R189, R190) -/

section Settling

variable {p u : State}

theorem settled_last (hp : Settled p u) (h : p.program.length ≤ p.lc + 1) : u.sched = .haltedOk ∧ u.program = [] := by
  cases hp with
  | ended _ => exact ⟨rfl, rfl⟩
  | cancelled hlt _ _ _ | nextBatch hlt _ _ | sameBatch hlt _ => omega

/-- At a batch boundary with a stop request pending, the free value decides. -/
theorem settled_boundary_stopping (hp : Settled p u) (hlt : p.lc + 1 < p.program.length) (hb : (p.lc + 1) % 100 = 0)
    (hs : p.sched = .stopping) :
    if Config.checkFollowsYield p.draws then u.sched = .stopping ∧ u.program = p.program ∧ u.checkPending = true
    else u.sched = .idle ∧ u.program = [] := by
  cases hp with
  | ended hend => omega
  | cancelled _ _ _ hc =>
    rw [if_neg (by rw [hc]; decide)]
    exact ⟨rfl, rfl⟩
  | nextBatch _ _ hc =>
    rw [if_pos (hc hs)]
    exact ⟨hs, rfl, hc hs⟩
  | sameBatch _ hne => exact absurd hb hne

theorem settled_boundary (hp : Settled p u) (hlt : p.lc + 1 < p.program.length) (hb : (p.lc + 1) % 100 = 0)
    (hs : p.sched ≠ .stopping) :
    u.sched = p.sched ∧ u.program = p.program ∧ u.checkPending = Config.checkFollowsYield p.draws := by
  cases hp with
  | ended hend => omega
  | cancelled _ _ hstop _ => exact absurd hstop hs
  | nextBatch _ _ _ => exact ⟨rfl, rfl, rfl⟩
  | sameBatch _ hne => exact absurd hb hne

theorem settled_inside (hp : Settled p u) (hlt : p.lc + 1 < p.program.length) (hb : (p.lc + 1) % 100 ≠ 0) :
    u.sched = p.sched ∧ u.program = p.program ∧ u.checkPending = false := by
  cases hp with
  | ended hend => omega
  | cancelled _ he _ _ | nextBatch _ he _ => exact absurd he hb
  | sameBatch _ _ => exact ⟨rfl, rfl, rfl⟩

end Settling

/-- Settles O45: what the line's own effect leaves has the sequencing state of before, and the cursor settles from
there. -/
theorem processedLineMovesOn : Obligations.ProcessedLineMovesOn := by
  intro s p line hd hq hf hline
  have hstep : step s = .next (advanceLine p) ∧ keepsSequencing (takeMove s) p := by
    rcases hline with ⟨hnoop, rfl⟩ | ⟨i, t, hinstr, hexec, hs, rfl⟩
    · exact ⟨step_of_noOp hd hq hf hnoop, rfl, rfl, rfl, rfl, rfl, rfl, rfl⟩
    · exact ⟨by rw [step_of_instr hd hq hf hinstr, runInstruction_completed hexec hs],
        instructionsDoNotSequence i _ t hexec hs⟩
  obtain ⟨hstep, hsched, hlc, hprog, _, _, hdraws, _⟩ := hstep
  simp only [takeMove_sched, takeMove_lc, takeMove_program, takeMove_draws] at hsched hlc hprog hdraws
  obtain ⟨hstores, hcursor, _⟩ := advanceLine_keeps p
  have hsettled := advanceLine_cases p
  have hleft : p.lc < p.program.length := by
    rw [hlc, hprog]
    exact lt_of_fetchLine hf
  have hdue : progressDue p = progressDue s := by rw [progressDue, hlc, hprog, progressDue]
  rw [← hsched, ← hlc, ← hprog, ← hdraws, ← hdue]
  exact ⟨_, hstep, hstores, hcursor, advanceLine_hooks hleft, settled_last hsettled, settled_boundary_stopping hsettled,
    settled_boundary hsettled, settled_inside hsettled⟩

/-- Settles O46: a no-op line is processed with no effect of its own. -/
theorem noOpLineOnlyMovesTheCursor : Obligations.NoOpLineOnlyMovesTheCursor := by
  intro s line hd hq hf hline
  obtain ⟨u, hstep, hstores, hlc, hhooks, _⟩ :=
    processedLineMovesOn s (takeMove s) line hd hq hf (.inl ⟨hline, rfl⟩)
  rw [takeMove_hooks, progressDue] at hhooks
  refine ⟨u, hstep, hstores, hlc, fun hdue => ?due, fun hnot => ?notDue⟩
  case due => rw [hhooks, if_pos hdue]
  case notDue => rw [hhooks, if_neg hnot, List.append_nil]

/-! ### After a failure (R181, R183) -/

/-- A machine that steps to itself stays there. -/
theorem run_of_step_self {s : State} (h : step s = .next s) (n : Nat) : core.run n s = .next s := by
  induction n with
  | zero => rfl
  | succ n ih => rw [run_succ n h, ih]

/-- Settles O48: outside a run and with no call of the host the scheduler's step changes nothing. -/
theorem failureHaltsForGood : Obligations.FailureHaltsForGood := by
  intro e s
  refine ⟨rfl, keepsStores_raise e s, rfl, raise_hooks e s, rfl, fun hhost => run_of_step_self ?_⟩
  have hcalls : (raise e s).host = [] := hhost
  rw [step_quiet (.inl hcalls), takeMove_nil hcalls, schedulerStep_rest rfl]

/-! ### The host's calls (R185 to R187, R200 to R202) -/

theorem hostStop_of_running {s : State} (h : s.sched = .running) : hostStop s = { s with sched := .stopping } :=
  if_pos h

theorem hostStop_of_not_running {s : State} (h : s.sched ≠ .running) : hostStop s = s := if_neg h

/-- Outside a run `run` loads the program into the reset state. -/
theorem hostRun_of_not_busy (text : Text) {s : State} (hb : s.busy = false) :
    hostRun text s = reachBoundary (loadProgram (splitLines text) (resetStores s)) :=
  if_neg (by rw [hb]; decide)

theorem hostReset_of_busy {s : State} (hb : s.busy = true) : hostReset s = .refused .resetDuringRun := if_pos hb

theorem hostReset_of_not_busy {s : State} (hb : s.busy = false) : hostReset s = .next (resetStores s) :=
  if_neg (by rw [hb]; decide)

section Calls

variable {s : State} {rest : List HostMove}

theorem step_stop (h : s.host = .stop :: rest) : step s = .next (hostStop { s with host := rest }) := by
  rw [step, h]

theorem step_reset (h : s.host = .reset :: rest) : step s = hostReset { s with host := rest } := by
  rw [step, h]

theorem step_run_of_not_busy {text : Text} (h : s.host = .run text :: rest) (hb : s.busy = false) :
    step s = .next (reachBoundary (loadProgram (splitLines text) (resetStores { s with host := rest }))) :=
  (step_run h).trans (congrArg _ (hostRun_of_not_busy text hb))

theorem step_run_of_busy {text : Text} (h : s.host = .run text :: rest) (hb : s.busy = true) :
    step s = .next { s with host := rest } :=
  (step_run h).trans (congrArg _ (hostRun_of_busy text hb))

theorem step_stop_of_running (h : s.host = .stop :: rest) (hs : s.sched = .running) :
    step s = .next { s with host := rest, sched := .stopping } :=
  (step_stop h).trans (congrArg _ (hostStop_of_running hs))

theorem step_stop_of_not_running (h : s.host = .stop :: rest) (hs : s.sched ≠ .running) :
    step s = .next { s with host := rest } :=
  (step_stop h).trans (congrArg _ (hostStop_of_not_running hs))

theorem step_reset_of_busy (h : s.host = .reset :: rest) (hb : s.busy = true) :
    step s = .refused .resetDuringRun :=
  (step_reset h).trans (hostReset_of_busy hb)

theorem step_reset_of_not_busy (h : s.host = .reset :: rest) (hb : s.busy = false) :
    step s = .next (resetStores { s with host := rest }) :=
  (step_reset h).trans (hostReset_of_not_busy hb)

end Calls

/-- Settles O49: the program is loaded into the reset state, Running, so that its first line is due. -/
theorem runStartsFromTheResetState : Obligations.RunStartsFromTheResetState := fun _ _ _ hb hcall =>
  ⟨_, step_run_of_not_busy hcall hb, ⟨rfl, rfl, rfl⟩, rfl, rfl, (lineDue_iff _).mpr ⟨rfl, Bool.and_false _⟩, rfl, rfl,
    rfl, rfl⟩

/-- Settles O51: the reset state has an idle scheduler and no program. -/
theorem resetCallRestoresTheStores : Obligations.ResetCallRestoresTheStores := fun _ _ hb hcall =>
  ⟨_, step_reset_of_not_busy hcall hb, ⟨rfl, rfl, rfl⟩, rfl, rfl, rfl⟩

/-- Settles O52: the call itself, and then the boundary check that is still to come. -/
theorem stopCallRecordsTheRequest : Obligations.StopCallRecordsTheRequest := by
  refine ⟨fun s rest hcall => ⟨step_stop_of_not_running hcall, fun hs => ?recorded⟩, fun s hs hcheck hq => ?check⟩
  case recorded =>
    refine ⟨_, step_stop_of_running hcall hs, rfl, rfl, ?_⟩
    simp [State.lineDue, State.busy, State.cancelDue]
  case check =>
    have hcancel : (takeMove s).cancelDue = true := (cancelDue_iff s).mpr ⟨hcheck, hs⟩
    exact ⟨_, (step_quiet hq).trans (schedulerStep_cancel hcancel), ⟨rfl, rfl, rfl⟩, rfl, rfl, rfl, rfl⟩

/-- What the host does at a step boundary. -/
theorem host_cases (s : State) :
    hostQuiet s ∨ (∃ text rest, s.host = .run text :: rest) ∨ (∃ rest, s.host = .stop :: rest)
      ∨ ∃ rest, s.host = .reset :: rest := by
  rcases hhost : s.host with _ | ⟨m, rest⟩
  · exact .inl (.inl hhost)
  · cases m with
    | wait => exact .inl (.inr ⟨rest, hhost⟩)
    | run text => exact .inr (.inl ⟨text, rest, rfl⟩)
    | stop => exact .inr (.inr (.inl ⟨rest, rfl⟩))
    | reset => exact .inr (.inr (.inr ⟨rest, rfl⟩))

/-- Outside a run the step only takes the host's move. -/
theorem step_quiet_rest {s : State} (hq : hostQuiet s) (hb : s.busy = false) : step s = .next (takeMove s) :=
  (step_quiet hq).trans (schedulerStep_rest hb)

/-- Where the host makes no call there is a next state, in a run or outside one. -/
theorem step_quiet_next {s : State} (hq : hostQuiet s) : ∃ t, step s = .next t := by
  cases hb : s.busy with
  | false => exact ⟨_, step_quiet_rest hq hb⟩
  | true =>
    obtain ⟨t, ht, _⟩ := step_quiet_cases hb hq
    exact ⟨t, ht⟩

/-- Settles O56: each move of the host but a `reset()` during a run has a next state. -/
theorem stepRefusesOnlyResetDuringARun : Obligations.StepRefusesOnlyResetDuringARun := by
  refine ⟨fun s rest hb hcall => step_reset_of_busy hcall hb, fun s hnot => ?others⟩
  case others =>
    rcases host_cases s with hq | ⟨text, rest, hcall⟩ | ⟨rest, hcall⟩ | ⟨rest, hcall⟩
    · exact step_quiet_next hq
    · exact ⟨_, step_run hcall⟩
    · exact ⟨_, step_stop hcall⟩
    · have hb : s.busy = false := Bool.eq_false_iff.mpr fun hb => hnot ⟨hb, rest, hcall⟩
      exact ⟨_, step_reset_of_not_busy hcall hb⟩

end Sys2Proof
end

