-- ==== Sys2Proof/Proofs/Invariant.lean ====
section
/-! The invariant of the machine and what stays fixed during a run (R22, R23, R28 to R30, R163, R181, R204). A
processed line either fails or leaves a state that is as before in all the invariant speaks of, from which the cursor
moves on; so each fact about a step comes down to the ends of a run and to the cursor's move. -/

namespace Sys2Proof

open Machine

/-! ### A line's own effect -/

/-- What a line that has not failed leaves, before the cursor moves: nothing of the sequencing state is changed, and
what the invariant says of the stores and of the error hook is kept. -/
structure LineDone (s p : State) : Prop where
  sequencing : keepsSequencing s p
  canonical : s.mem.wf = true → p.mem.wf = true
  auxiliary : s.flags.AF = false → p.flags.AF = false
  direction : p.flags.DF = s.flags.DF
  errors : errorCalls p.hooks = errorCalls s.hooks

/-- A no-op line has no effect of its own. -/
theorem lineDone_self (s : State) : LineDone s s where
  sequencing := ⟨rfl, rfl, rfl, rfl, rfl, rfl, rfl⟩
  canonical := id
  auxiliary := id
  direction := rfl
  errors := rfl

/-- A completed instruction and its snapshot. -/
theorem lineDone_of_completed {i : Instr} {s t : State} (h : Completed i s t) : LineDone s (publishSnapshot t) where
  sequencing := h.sequencing
  canonical := h.canonical
  auxiliary := h.flags.auxiliary
  direction := h.flags.direction
  errors := by simp [h.errors]

/-- A processed line has failed, or the cursor moves on from what it has left. -/
theorem processed_cases {s u : State} (h : Processed s u) :
    (∃ e, u = raise e s) ∨ ∃ p, LineDone s p ∧ u = advanceLine p := by
  cases h with
  | failed e => exact .inl ⟨e, rfl⟩
  | skipped => exact .inr ⟨s, lineDone_self s, rfl⟩
  | executed i t _ hc _ => exact .inr ⟨publishSnapshot t, lineDone_of_completed hc, rfl⟩

/-! ### A run that goes on (R29, R163) -/

/-- Where the run goes on after a line, it is with the same program, at the next line of it. -/
structure GoesOn (s t : State) : Prop where
  sched : t.sched = s.sched
  cursor : t.lc = s.lc + 1
  inside : t.lc < t.program.length
  program : t.program = s.program
  labels : t.labelMap = s.labelMap

theorem settled_goesOn {p u : State} (hp : Settled p u) (hb : u.busy = true) : GoesOn p u := by
  cases hp with
  | ended _ | cancelled _ _ _ _ => cases hb
  | nextBatch hlt _ _ | sameBatch hlt _ => exact ⟨rfl, rfl, hlt, rfl, rfl⟩

theorem processed_goesOn {s u : State} (h : Processed s u) (hb : u.busy = true) : GoesOn s u := by
  rcases processed_cases h with ⟨e, rfl⟩ | ⟨p, hdone, rfl⟩
  · cases hb
  · obtain ⟨hsched, hlc, hprog, hlabels, _⟩ := hdone.sequencing
    obtain ⟨hsched', hlc', hin, hprog', hlabels'⟩ := settled_goesOn (advanceLine_cases p) hb
    exact ⟨hsched'.trans hsched, by rw [hlc', hlc], hin, hprog'.trans hprog, hlabels'.trans hlabels⟩

/-- The step of a run in progress ends it or goes on with it, where the host makes no call. -/
theorem step_quiet_goesOn {s : State} (hb : s.busy = true) (hq : hostQuiet s) :
    ∃ t, step s = .next t ∧ (t.busy = false ∨ GoesOn s t) := by
  obtain ⟨t, ht, ⟨_, rfl⟩ | ⟨_, _, hp⟩ | ⟨_, _, rfl⟩⟩ := step_quiet_cases hb hq
  · exact ⟨_, ht, .inl rfl⟩
  · refine ⟨t, ht, ?_⟩
    cases hbusy : t.busy with
    | false => exact .inl rfl
    | true =>
      obtain ⟨hsched, hlc, hin, hprog, hlabels⟩ := processed_goesOn hp hbusy
      exact .inr ⟨hsched, hlc, hin, hprog, hlabels⟩
  · exact ⟨_, ht, .inl rfl⟩

/-- Settles O55: the scheduler goes on with the same program, and no call of the host during a run replaces it. -/
theorem programIsFixedDuringARun : Obligations.ProgramIsFixedDuringARun := by
  intro s t hb hstep hbusy
  rcases host_cases s with hq | ⟨text, rest, hcall⟩ | ⟨rest, hcall⟩ | ⟨rest, hcall⟩
  · obtain ⟨t', ht', hends⟩ := step_quiet_goesOn hb hq
    obtain rfl := next_inj hstep ht'
    rcases hends with hover | hgoes
    · rw [hover] at hbusy
      cases hbusy
    · exact ⟨hgoes.program, hgoes.labels⟩
  · obtain rfl := next_inj hstep (step_run_of_busy hcall hb)
    exact ⟨rfl, rfl⟩
  · by_cases hs : s.sched = .running
    · obtain rfl := next_inj hstep (step_stop_of_running hcall hs)
      exact ⟨rfl, rfl⟩
    · obtain rfl := next_inj hstep (step_stop_of_not_running hcall hs)
      exact ⟨rfl, rfl⟩
  · cases hstep.symm.trans (step_reset_of_busy hcall hb)

/-! ### The invariant -/

/-- Settles O59: the reset state is given field by field. -/
theorem resetValues : Obligations.ResetValues := by
  refine ⟨rfl, fun a h0 h1 => readByte_ok ⟨h0, h1⟩, rfl, fun q hq => ?registers, rfl, rfl, rfl, rfl, rfl, rfl, rfl⟩
  case registers =>
    cases q with
    | sp => exact absurd rfl hq
    | _ => rfl

/-- The reset state has the invariant, whatever the host has yet to do and whatever the model's counters stand at. -/
theorem inv_resetStores (s : State) : (resetStores s).Inv where
  memory := rfl
  auxiliary := rfl
  direction := rfl
  cursor := nofun
  labels := nofun
  discarded := fun _ => ⟨rfl, rfl⟩
  check := nofun
  errors := rfl

/-- Settles O57: the reset state is what a reset of it leaves. -/
theorem resetStateHasTheInvariant : Obligations.ResetStateHasTheInvariant := inv_resetStores State.reset

/-- The invariant says nothing of the calls the host has yet to make. -/
theorem inv_setHost {s : State} (h : s.Inv) (rest : List HostMove) : { s with host := rest }.Inv :=
  ⟨h.memory, h.auxiliary, h.direction, h.cursor, h.labels, h.discarded, h.check, h.errors⟩

/-- During a run no failure is on record. -/
theorem errorCalls_of_busy {s : State} (h : s.Inv) (hb : s.busy = true) : errorCalls s.hooks = [] := by
  have hs : s.sched ≠ .haltedError := by
    rcases (busy_iff s).mp hb with hs | hs <;> rw [hs] <;> decide
  have herr := h.errors
  rwa [if_neg hs, List.length_eq_zero_iff] at herr

/-- A run ends in a state with the invariant: nothing of the run is left, and the error hook has been invoked exactly
if it ends in Halted-Error. -/
theorem inv_endRun {q : Sched} {s : State} (hq : (endRun q s).busy = false) (hmem : s.mem.wf = true)
    (haux : s.flags.AF = false) (hdir : s.flags.DF = false)
    (herr : (errorCalls s.hooks).length = if q = .haltedError then 1 else 0) : (endRun q s).Inv where
  memory := hmem
  auxiliary := haux
  direction := hdir
  cursor := fun hb => absurd hb (by rw [hq]; decide)
  labels := fun hb => absurd hb (by rw [hq]; decide)
  discarded := fun _ => ⟨rfl, rfl⟩
  check := nofun
  errors := herr

theorem inv_raise {s : State} (h : s.Inv) (hb : s.busy = true) (e : ErrorKind) : (raise e s).Inv :=
  inv_endRun rfl h.memory h.auxiliary h.direction (by simp [errorCalls_of_busy h hb])

/-- What a line has left has the invariant still. -/
theorem LineDone.inv {s p : State} (hd : LineDone s p) (h : s.Inv) : p.Inv := by
  obtain ⟨hsched, hlc, hprog, hlabels, _, _, hcheck⟩ := hd.sequencing
  have hbusy : p.busy = s.busy := by rw [State.busy, hsched, State.busy]
  refine ⟨hd.canonical h.memory, hd.auxiliary h.auxiliary, hd.direction.trans h.direction, ?_, ?_, ?_, ?_, ?_⟩
  · rw [hbusy, hlc, hprog]
    exact h.cursor
  · rw [hbusy, hlabels, hprog]
    exact h.labels
  · rw [hbusy, hlabels, hprog]
    exact h.discarded
  · rw [hbusy, hlc, hcheck]
    exact h.check
  · rw [hd.errors, hsched]
    exact h.errors

/-- The cursor's move keeps the invariant: a run that goes on has a line left, and a boundary check is to come only
where a batch is done. -/
theorem inv_settled {p u : State} (hp : Settled p u) (h : p.Inv) (hb : p.busy = true) : u.Inv := by
  have hnone := errorCalls_of_busy h hb
  cases hp with
  | ended _ => exact inv_endRun rfl h.memory h.auxiliary h.direction (by simp [hnone])
  | cancelled _ _ _ _ => exact inv_endRun rfl h.memory h.auxiliary h.direction (by simp [hnone])
  | nextBatch hlt hbatch _ =>
    have hbusy : (reachBoundary (publishProgress (bumpCursor p))).busy = true := hb
    exact ⟨h.memory, h.auxiliary, h.direction, fun _ => hlt, fun _ => h.labels hb,
      fun hn => absurd hbusy (by rw [hn]; decide), fun _ => ⟨hbusy, hbatch⟩,
      (congrArg List.length (by simp)).trans h.errors⟩
  | sameBatch hlt _ =>
    have hbusy : (bumpCursor p).busy = true := hb
    exact ⟨h.memory, h.auxiliary, h.direction, fun _ => hlt, fun _ => h.labels hb,
      fun hn => absurd hbusy (by rw [hn]; decide), nofun, h.errors⟩

/-- The scheduler's step of a run in progress keeps the invariant. -/
theorem inv_step_quiet {s t : State} (h : s.Inv) (hb : s.busy = true) (hq : hostQuiet s) (hstep : step s = .next t) :
    t.Inv := by
  have hmove : (takeMove s).Inv := inv_setHost h _
  have hnone : errorCalls s.hooks = [] := errorCalls_of_busy h hb
  obtain ⟨t', ht', hcases⟩ := step_quiet_cases hb hq
  obtain rfl := next_inj hstep ht'
  rcases hcases with ⟨_, rfl⟩ | ⟨_, _, hp⟩ | ⟨_, _, rfl⟩
  · exact inv_endRun rfl h.memory h.auxiliary h.direction (by simp [hnone])
  · rcases processed_cases hp with ⟨e, rfl⟩ | ⟨p, hdone, rfl⟩
    · exact inv_raise hmove hb e
    · obtain ⟨hsched, _⟩ := hdone.sequencing
      have hbusy : p.busy = true := by rw [State.busy, hsched]; exact hb
      exact inv_settled (advanceLine_cases p) (hdone.inv hmove) hbusy
  · exact inv_endRun rfl h.memory h.auxiliary h.direction (by simp [hnone])

/-- A loaded program has a first line, and line 0 is a batch boundary. -/
theorem inv_started (text : Text) (s : State) :
    (reachBoundary (loadProgram (splitLines text) (resetStores s))).Inv where
  memory := rfl
  auxiliary := rfl
  direction := rfl
  cursor := fun _ => List.length_pos_iff.mpr (splitLines_ne_nil text)
  labels := fun _ => rfl
  discarded := nofun
  check := fun _ => ⟨rfl, rfl⟩
  errors := rfl

/-- A stop request changes neither that a run is in progress nor anything else the invariant speaks of. -/
theorem inv_stopping {s : State} (h : s.Inv) (hs : s.sched = .running) : { s with sched := .stopping }.Inv := by
  have hb : s.busy = true := (busy_iff s).mpr (.inl hs)
  exact ⟨h.memory, h.auxiliary, h.direction, fun _ => h.cursor hb, fun _ => h.labels hb, nofun,
    fun hc => ⟨rfl, (h.check hc).2⟩, by simp [errorCalls_of_busy h hb]⟩

/-- Settles O58: the scheduler's step outside a run and within one, and each of the host's calls. -/
theorem stepKeepsTheInvariant : Obligations.StepKeepsTheInvariant := by
  intro s t h hstep
  rcases host_cases s with hq | ⟨text, rest, hcall⟩ | ⟨rest, hcall⟩ | ⟨rest, hcall⟩
  · cases hb : s.busy with
    | false => exact next_inj hstep (step_quiet_rest hq hb) ▸ inv_setHost h _
    | true => exact inv_step_quiet h hb hq hstep
  · cases hb : s.busy with
    | false => exact next_inj hstep (step_run_of_not_busy hcall hb) ▸ inv_started text _
    | true => exact next_inj hstep (step_run_of_busy hcall hb) ▸ inv_setHost h rest
  · by_cases hs : s.sched = .running
    · exact next_inj hstep (step_stop_of_running hcall hs) ▸ inv_stopping (inv_setHost h rest) hs
    · exact next_inj hstep (step_stop_of_not_running hcall hs) ▸ inv_setHost h rest
  · cases hb : s.busy with
    | false => exact next_inj hstep (step_reset_of_not_busy hcall hb) ▸ inv_resetStores _
    | true => cases hstep.symm.trans (step_reset_of_busy hcall hb)

end Sys2Proof
end

