-- ==== Sys2Proof/Proofs/EndOfRun.lean ====
section
/-! How far a run goes (R163, R166, R185, R207, R208): left to itself it ends within as many steps as it has lines left,
and after a stop request no line beyond the batch it stands in is processed. -/

namespace Sys2Proof

open Machine

/-! ### Termination -/

/-- The scheduler's step takes the host's move and makes none itself. -/
theorem step_quiet_host {s t : State} (hq : hostQuiet s) (hstep : step s = .next t) : t.host = s.host.tail := by
  cases hb : s.busy with
  | false =>
    rw [next_inj hstep (step_quiet_rest hq hb), takeMove_host]
  | true =>
    obtain ⟨t', ht', hcases⟩ := step_quiet_cases hb hq
    obtain rfl := next_inj hstep ht'
    rcases hcases with ⟨_, rfl⟩ | ⟨_, _, hp⟩ | ⟨_, _, rfl⟩
    · rfl
    · rcases processed_cases hp with ⟨e, rfl⟩ | ⟨p, hdone, rfl⟩
      · rfl
      · obtain ⟨_, _, _, _, hhost, _⟩ := hdone.sequencing
        obtain ⟨_, _, hhost'⟩ := advanceLine_keeps p
        rw [hhost', hhost, takeMove_host]
    · rfl

/-- A run with `k` lines left and no call of the host to come ends within `k` steps. -/
theorem run_ends {k : Nat} {s : State} (hb : s.busy = true) (hhost : s.host = []) (hlc : s.lc < s.program.length)
    (hk : s.program.length - s.lc ≤ k) : ∃ n t, n ≤ k ∧ core.run n s = .next t ∧ t.busy = false := by
  induction k generalizing s with
  | zero => omega
  | succ k ih =>
    have hq : hostQuiet s := .inl hhost
    obtain ⟨t, ht, hover | hgoes⟩ := step_quiet_goesOn hb hq
    · exact ⟨1, t, by omega, run_succ 0 ht, hover⟩
    · cases hbusy : t.busy with
      | false => exact ⟨1, t, by omega, run_succ 0 ht, hbusy⟩
      | true =>
        have hhost' : t.host = [] := by rw [step_quiet_host hq ht, hhost, List.tail_nil]
        have hleft : t.program.length - t.lc ≤ k := by
          rw [hgoes.program, hgoes.cursor]
          omega
        obtain ⟨n, u, hn, hrun, hend⟩ := ih hbusy hhost' hgoes.inside hleft
        exact ⟨n + 1, u, by omega, (run_succ n ht).trans hrun, hend⟩

/-- Settles O54: each step uses up a line, and the invariant says that one is left at the start. -/
theorem everyRunTerminates : Obligations.EveryRunTerminates := by
  refine ⟨fun s hb hq => ?step, fun s hinv hb hhost => run_ends hb hhost (hinv.cursor hb) le_rfl⟩
  case step =>
    obtain ⟨t, ht, hends⟩ := step_quiet_goesOn hb hq
    exact ⟨t, ht, hends.imp_right fun hgoes => ⟨hgoes.cursor, hgoes.inside, hgoes.program⟩⟩

/-! ### Cancellation latency -/

/-- After a line before the boundary `b` with a stop request pending, the cursor has moved towards `b` and, where it has
reached it, the check is still to come. -/
theorem settled_stops {p u : State} {b : Nat} (hp : Settled p u) (hb : b % 100 = 0) (hs : p.sched = .stopping)
    (hlt : p.lc < b) : stopsBefore b u ∨ stoppedBy b u := by
  cases hp with
  | ended _ | cancelled _ _ _ _ => exact .inr ⟨rfl, hlt⟩
  | nextBatch _ _ hcheck => exact .inl ⟨hs, (Nat.lt_or_eq_of_le hlt).imp_right fun heq => ⟨heq, hcheck hs⟩⟩
  | sameBatch _ hne =>
    have hbefore : p.lc + 1 < b := by omega
    exact .inl ⟨hs, .inl hbefore⟩

theorem lc_le_of_stopsBefore {b : Nat} {s : State} (h : stopsBefore b s) : s.lc ≤ b := by
  obtain ⟨_, hlt | ⟨heq, _⟩⟩ := h
  · exact Nat.le_of_lt hlt
  · exact Nat.le_of_eq heq

/-- A line that is due stands before the boundary: at it the check would cancel the run. -/
theorem lt_of_stopsBefore {b : Nat} {s : State} (h : stopsBefore b s) (hd : s.lineDue = true) : s.lc < b := by
  obtain ⟨hs, hlt | ⟨_, hcheck⟩⟩ := h
  · exact hlt
  · obtain ⟨_, hnot⟩ := (lineDue_iff s).mp hd
    rw [(cancelDue_iff s).mpr ⟨hcheck, hs⟩] at hnot
    cases hnot

/-- The step while a stop request is pending before the boundary `b`. -/
theorem step_stops {s : State} {b : Nat} (hb : b % 100 = 0) (h : stopsBefore b s) (hq : hostQuiet s) :
    ∃ t, step s = .next t ∧ (stopsBefore b t ∨ stoppedBy b t) := by
  have hle : s.lc ≤ b := lc_le_of_stopsBefore h
  have hs : s.sched = .stopping := h.1
  obtain ⟨t, ht, hcases⟩ := step_quiet_cases ((busy_iff s).mpr (.inr hs)) hq
  refine ⟨t, ht, ?_⟩
  rcases hcases with ⟨_, rfl⟩ | ⟨hd, _, hp⟩ | ⟨_, _, rfl⟩
  · exact .inr ⟨rfl, hle⟩
  · rcases processed_cases hp with ⟨e, rfl⟩ | ⟨p, hdone, rfl⟩
    · exact .inr ⟨rfl, hle⟩
    · obtain ⟨hsched, hlc, _⟩ := hdone.sequencing
      have hlt : p.lc < b := by
        rw [hlc]
        exact lt_of_stopsBefore h hd
      exact settled_stops (advanceLine_cases p) hb (hsched.trans hs) hlt
  · exact .inr ⟨rfl, hle⟩

/-- The request is pending or has been granted, and the host only waits: what every state after a stop request has. -/
structure WindingDown (b : Nat) (s : State) : Prop where
  stops : stopsBefore b s ∨ stoppedBy b s
  waits : ∀ m ∈ s.host, m = .wait

theorem WindingDown.quiet {b : Nat} {s : State} (h : WindingDown b s) : hostQuiet s := by
  rcases hhost : s.host with _ | ⟨m, rest⟩
  · exact .inl hhost
  · have hm : m = .wait := h.waits m (by simp [hhost])
    exact .inr ⟨rest, by rw [hhost, hm]⟩

theorem WindingDown.next {b : Nat} (hb : b % 100 = 0) {s : State} (h : WindingDown b s) :
    ∃ t, step s = .next t ∧ WindingDown b t := by
  have hwaits : ∀ {t}, step s = .next t → ∀ m ∈ t.host, m = .wait := fun ht m hm =>
    h.waits m (List.mem_of_mem_tail (step_quiet_host h.quiet ht ▸ hm))
  rcases h.stops with hstops | ⟨hover, hle⟩
  · obtain ⟨t, ht, hnext⟩ := step_stops hb hstops h.quiet
    exact ⟨t, ht, hnext, hwaits ht⟩
  · have ht := step_quiet_rest h.quiet hover
    exact ⟨_, ht, .inr ⟨hover, hle⟩, hwaits ht⟩

/-- What every step keeps holds however many steps follow. -/
theorem run_keeps {P : State → Prop} (hstep : ∀ s, P s → ∃ t, step s = .next t ∧ P t) {s t : State} {n : Nat}
    (h : P s) (hrun : core.run n s = .next t) : P t := by
  induction n generalizing s with
  | zero => exact run_zero hrun ▸ h
  | succ n ih =>
    obtain ⟨u, hu, hpu⟩ := hstep s h
    exact ih hpu ((run_succ n hu).symm.trans hrun)

/-- The cursor of a run that is winding down, and of one that is over. -/
theorem WindingDown.bound {b : Nat} {s : State} (h : WindingDown b s) :
    s.lc ≤ b ∧ (s.lineDue = true → s.lc < b) := by
  rcases h.stops with hstops | ⟨hover, hle⟩
  · exact ⟨lc_le_of_stopsBefore hstops, lt_of_stopsBefore hstops⟩
  · refine ⟨hle, fun hd => ?_⟩
    obtain ⟨hbusy, _⟩ := (lineDue_iff s).mp hd
    rw [hover] at hbusy
    cases hbusy

/-- Settles O53: at the request the cursor stands inside the batch that the boundary ends, and from then on the run is
winding down. -/
theorem stopBoundsTheRun : Obligations.StopBoundsTheRun := by
  refine ⟨fun s b hb hstops hq => step_stops hb hstops hq, fun s t rest n hs hcall hwaits hrun => ?run⟩
  case run =>
    have hinBatch : s.lc < 100 * (s.lc / 100 + 1) := Nat.lt_mul_div_succ s.lc (by decide)
    cases n with
    | zero =>
      rw [run_zero hrun]
      exact ⟨Nat.le_of_lt hinBatch, fun _ => hinBatch⟩
    | succ n =>
      have hrest := (run_succ n (step_stop_of_running hcall hs)).symm.trans hrun
      have hdown : WindingDown (100 * (s.lc / 100 + 1)) { s with host := rest, sched := .stopping } :=
        ⟨.inl ⟨rfl, .inl hinBatch⟩, hwaits⟩
      exact (run_keeps (fun _ => WindingDown.next (Nat.mul_mod_right ..)) hdown hrest).bound

end Sys2Proof
end
